-- ==== Sys2Proof/Word.lean ====
section
/-! DEFINITION. The two word types of the hardware (R6): a byte and a 16-bit address. -/

namespace Sys2Proof

/-- Eight bits: A, X, Y, every memory cell and every operand byte (R5 "data width", R6). -/
abbrev Byte := BitVec 8

/-- Sixteen bits: PC, SP and every address (R5 "address width", R6). -/
abbrev Addr := BitVec 16

end Sys2Proof
end

