-- ==== Sys2Proof/Config.lean ====
section
/-! DEFINITION. The parameters of R5, with the values the spec gives or decides, and the units an instruction-table entry is
made of (R10, R135). MEM_SIZE and MEM_INIT are not here: the spec leaves them open, so the memory in `State` holds them. -/

namespace Sys2Proof

/-- The four opcode parameters of R5 (`OPC_LDA_IMM`, `OPC_LDA_ZP`, `OPC_LDA_ZPX`, `OPC_LDA_ABS`). -/
structure Opcodes where
  /-- `OPC_LDA_IMM` -/
  ldaImm : Byte
  /-- `OPC_LDA_ZP` -/
  ldaZp : Byte
  /-- `OPC_LDA_ZPX` -/
  ldaZpx : Byte
  /-- `OPC_LDA_ABS` -/
  ldaAbs : Byte
deriving DecidableEq, Repr

/-- `BUDGET_BASIS` of R5 and R164: what `execute` compares with its budget. -/
inductive BudgetBasis where
  /-- the cycles consumed since the call was entered (the spec's choice D4) -/
  | perCall
  /-- the whole counter (the other reading of C3) -/
  | sinceReset
deriving DecidableEq, Repr

/-- The six addressing-mode units, "Instruction Inputs" (R3, R101 to R106). -/
inductive Resolver where
  | immediate
  | zeroPage
  | zeroPageX
  | zeroPageY
  | absolute
  | accumulator
deriving DecidableEq, Repr

/-- The pure transformation of a table entry (R135), "a total function from byte to byte", as plain data: `Transform.ofFunction`
(Decode.lean) writes any such function so (log 25). -/
inductive Transform where
  /-- the transformation of every LDA (R136; log 20) -/
  | identity
  /-- any total function from byte to byte, by its 256 values: the value at an operand is the entry at the operand's number. No
  entry of the default table holds one; another table may (R174) -/
  | table (values : Vector Byte 256)
deriving DecidableEq, Repr

/-- The effect appliers, "Instruction Outputs": LoadA only (R121, R125; "only LoadA in scope", R135). -/
inductive Applier where
  | loadA
deriving DecidableEq, Repr

/-- An Instruction as data: the triple of R135. A composite (a pair in place of a resolver or an applier, R110) cannot be
written: the spec puts composites out of scope (R4; D17; log 18). -/
structure Instruction where
  resolver : Resolver
  transform : Transform
  applier : Applier
deriving DecidableEq, Repr

/-- `ITABLE`: a partial map from opcode bytes to Instructions (R33, R155), as a list with one entry per registered byte. -/
abbrev ITable := List (Byte × Instruction)

namespace Config

/-- `FETCH_COST` (R5): cycles per byte fetched from the instruction stream. -/
def fetchCost : Nat := 1

/-- `DATA_READ_COST` (R5; D3, C1; log 7): cycles per data read of a resolver. -/
def dataReadCost : Nat := 1

/-- `INDEX_ADD_COST` (R5): extra cycles of the index addition. -/
def indexAddCost : Nat := 1

/-- `CLEAR_VALUE` (R5; D7; log 4): the byte every cell holds after `reset()`. -/
def clearValue : Byte := 0x00

/-- The power-up value of PC (R24, R61). -/
def resetPC : Addr := 0xFF00

/-- The power-up value of SP (R23). -/
def resetSP : Addr := 0x0100

/-- The largest capacity a 16-bit address can reach (R54). -/
def maxMemSize : Nat := 65536

/-- The default of `MEM_SIZE` (R54; D6; log 3). No statement rests on it: only `State.reset` uses it. -/
def defaultMemSize : Nat := 65536

/-- The opcode bytes (R5, R87). PRESUMED: the spec's D1 takes them from the MOS 6502, the source gives none (G1; log 5). -/
def opcodes : Opcodes := { ldaImm := 0xA9, ldaZp := 0xA5, ldaZpx := 0xB5, ldaAbs := 0xAD }

/-- The `BUDGET_BASIS` in force (R5, R164; D4, C3; log 8). -/
def budgetBasis : BudgetBasis := .perCall

end Config

end Sys2Proof
end

