-- ==== Sys2Proof/Syntax.lean ====
section
/-! DEFINITION. The instructions: one constructor per row of spec/opcode_table.json (R87). -/

namespace Sys2Proof

/-- The load-accumulator family (R2, R137 to R140). Operands are what the decoder assembles (R83 to R85): a value, a zero-page
address byte, a zero-page base byte, a 16-bit address. -/
inductive Instr where
  /-- `LDA #imm8` (R137), table mnemonic LDA__imm8 -/
  | ldaImm (imm8 : Byte)
  /-- `LDA zp8` (R138), table mnemonic LDA_zp8 -/
  | ldaZp (zp8 : Byte)
  /-- `LDA base8,X` (R139), table mnemonic LDA_base8_X -/
  | ldaZpx (base8 : Byte)
  /-- `LDA abs16` (R140), table mnemonic LDA_abs16 -/
  | ldaAbs (abs16 : Addr)
deriving DecidableEq, Repr

end Sys2Proof
end

