-- ==== Sys2Proof/WellFormed.lean ====
section
/-! DEFINITION. What the spec requires of the data a program and a host hand to the machine. -/

namespace Sys2Proof

/-- Every instruction is well formed: "All operand byte values 0x00-0xFF are legal for every instruction; no operand value is
reserved" (R89). The operands' types hold exactly those values. -/
def Instr.wf : Instr → Bool
  | .ldaImm _ => true
  | .ldaZp _ => true
  | .ldaZpx _ => true
  | .ldaAbs _ => true

/-- The four opcode parameters "must be pairwise distinct" (R87). -/
def Opcodes.distinct (o : Opcodes) : Bool :=
  o.ldaImm != o.ldaZp && o.ldaImm != o.ldaZpx && o.ldaImm != o.ldaAbs &&
  o.ldaZp != o.ldaZpx && o.ldaZp != o.ldaAbs && o.ldaZpx != o.ldaAbs

/-- An opcode is a "globally unique key in the table" (R93): no opcode byte is listed twice. -/
abbrev ITable.wf (t : ITable) : Prop :=
  List.Pairwise (fun e e' => e.1 ≠ e'.1) t

/-- A legal capacity: `1 <= MEM_SIZE <= 65536` (R54). -/
def memSizeOk (n : Nat) : Bool :=
  decide (1 ≤ n) && decide (n ≤ Config.maxMemSize)

end Sys2Proof
end

