-- ==== Sys2Proof/Decode.lean ====
section
/-! DEFINITION. The instruction table's two operations and its fixed build (R155, R156), the decoder from bytes, and the encoder
written from the same formats (R81, R87). -/

namespace Sys2Proof

/-! ### Byte order -/

/-- `hi8 ++ lo8` (R6, R55, R85): the 16-bit address with high byte `hi` and low byte `lo`. -/
def joinBytes (hi lo : Byte) : Addr := hi ++ lo

/-- Bits 7:0 of an address, the byte that stands first in the stream (R81 format F2). -/
def lowByte (a : Addr) : Byte := a.extractLsb' 0 8

/-- Bits 15:8 of an address, the byte that stands second in the stream (R81 format F2). -/
def highByte (a : Addr) : Byte := a.extractLsb' 8 8

/-! ### The instruction table -/

/-- `lookup(opcode) -> Some(instruction) | None` (R155). -/
def ITable.lookup : ITable → Byte → Option Instruction
  | [], _ => none
  | (k, ins) :: t, op => if k = op then some ins else ITable.lookup t op

/-- `register(opcode, instruction)`: "inserts or overwrites", "last write wins" (R93, R155). -/
def ITable.register (t : ITable) (op : Byte) (ins : Instruction) : ITable :=
  (op, ins) :: t.filter (fun e => e.1 != op)

/-- The "fixed initialization routine" (R156), over the opcode parameters. -/
def buildTable (o : Opcodes) : ITable :=
  ITable.register (ITable.register (ITable.register (ITable.register []
    o.ldaImm ⟨.immediate, .identity, .loadA⟩)
    o.ldaZp ⟨.zeroPage, .identity, .loadA⟩)
    o.ldaZpx ⟨.zeroPageX, .identity, .loadA⟩)
    o.ldaAbs ⟨.absolute, .identity, .loadA⟩

/-- The default table (R87; content decided by the spec, D2; log 6). -/
def defaultTable : ITable := buildTable Config.opcodes

/-- A "new pure transformation function" (R174), as table data: any total function from byte to byte (R135; log 25). -/
def Transform.ofFunction (f : Byte → Byte) : Transform :=
  .table (Vector.ofFn fun k => f (BitVec.ofFin k))

/-- "Bytes consumed from stream" of each addressing mode (R80). -/
def Resolver.streamBytes : Resolver → Nat
  | .immediate => 1
  | .zeroPage => 1
  | .zeroPageX => 1
  | .zeroPageY => 1
  | .absolute => 2
  | .accumulator => 0

/-! ### The decoder -/

/-- Why a byte string is no instruction. -/
inductive DecodeError where
  /-- there is no opcode byte -/
  | noBytes
  /-- the opcode has no table entry (R88) -/
  | undefinedOpcode (op : Byte)
  /-- the operand bytes end too early (R80) -/
  | truncated (op : Byte)
  /-- the entry is no row of the opcode table: its mode is Zero Page,Y or Accumulator (R104, R106), or its transformation is not
  the identity (R174); never with the default table -/
  | noTableRow (op : Byte)
deriving DecidableEq, Repr

/-- Reads the operand bytes of an identity load in an addressing mode (R81, R83 to R85): the low address byte comes first. -/
def parseMode (op : Byte) (mode : Resolver) (bytes : List Byte) : Except DecodeError (Instr × List Byte) :=
  match mode with
  | .immediate => match bytes with
    | v :: rest => .ok (.ldaImm v, rest)
    | [] => .error (.truncated op)
  | .zeroPage => match bytes with
    | zp :: rest => .ok (.ldaZp zp, rest)
    | [] => .error (.truncated op)
  | .zeroPageX => match bytes with
    | base :: rest => .ok (.ldaZpx base, rest)
    | [] => .error (.truncated op)
  | .absolute => match bytes with
    | lo :: hi :: rest => .ok (.ldaAbs (joinBytes hi lo), rest)
    | [_] => .error (.truncated op)
    | [] => .error (.truncated op)
  | .zeroPageY => .error (.noTableRow op)
  | .accumulator => .error (.noTableRow op)

/-- Reads the operand bytes of a table entry: "The addressing mode, the transformation and the applier all come from the table
entry" (R82), and the four LDAs are the identity loads (R137 to R140). -/
def parseOperands (op : Byte) (ins : Instruction) (bytes : List Byte) : Except DecodeError (Instr × List Byte) :=
  match ins.transform, ins.applier with
  | .identity, .loadA => parseMode op ins.resolver bytes
  | .table _, .loadA => .error (.noTableRow op)

/-- Decoding under a table: a lookup of the whole opcode byte (R82), then the operand bytes of the entry's mode (R86). Answers the
instruction and the bytes after it. -/
def decodeWith (t : ITable) : List Byte → Except DecodeError (Instr × List Byte)
  | [] => .error .noBytes
  | op :: bytes =>
    match t.lookup op with
    | none => .error (.undefinedOpcode op)
    | some ins => parseOperands op ins bytes

/-- Decoding under the default table (R87). -/
def decode (bytes : List Byte) : Except DecodeError (Instr × List Byte) :=
  decodeWith defaultTable bytes

/-! ### The encoder -/

/-- The bytes of an instruction (R81 formats F1 and F2) under given opcode parameters. -/
def encodeWith (o : Opcodes) : Instr → List Byte
  | .ldaImm v => [o.ldaImm, v]
  | .ldaZp zp => [o.ldaZp, zp]
  | .ldaZpx base => [o.ldaZpx, base]
  | .ldaAbs a => [o.ldaAbs, lowByte a, highByte a]

/-- The bytes of an instruction under the default opcode bytes (R87). -/
def encode (i : Instr) : List Byte := encodeWith Config.opcodes i

/-- The length in bytes (R86). -/
def Instr.length : Instr → Nat
  | .ldaImm _ => 2
  | .ldaZp _ => 2
  | .ldaZpx _ => 2
  | .ldaAbs _ => 3

/-! ### Table words -/

/-- The three bytes (the longest instruction, R80) of a table word of `nbits` bits: byte `k` is bits `8k+7 .. 8k`, and every bit
from `nbits` up is 0. -/
def tableWordBytes (nbits w : Nat) : List Byte :=
  [BitVec.ofNat 8 (w % 2 ^ nbits), BitVec.ofNat 8 (w % 2 ^ nbits / 256), BitVec.ofNat 8 (w % 2 ^ nbits / 65536)]

/-- The instruction the decoder reads from an opcode-table word. -/
def decodeTableWord (nbits w : Nat) : Option Instr :=
  match decode (tableWordBytes nbits w) with
  | .ok (i, _) => some i
  | .error _ => none

end Sys2Proof
end

