-- ==== Sys2Proof/Machine/State.lean ====
section
/-! DEFINITION. The state of the core (10_state.md), as plain data, the reasons a step can stop, and the state after reset. -/

namespace Sys2Proof.Machine

/-- The seven status flags, "each a single boolean" (R27). There is no packed form (R30; log 15). -/
structure Flags where
  /-- `C` -/
  carry : Bool
  /-- `Z` -/
  zero : Bool
  /-- `I` -/
  interruptDisable : Bool
  /-- `D` -/
  decimal : Bool
  /-- `B` -/
  brk : Bool
  /-- `V` -/
  overflow : Bool
  /-- `N` -/
  negative : Bool
deriving DecidableEq, Repr

/-- `run`, the control state (R32). -/
inductive RunState where
  /-- "waiting for an execute request" -/
  | idle
  /-- "mid fetch-decode-execute" -/
  | running
deriving DecidableEq, Repr

/-- One UndefinedOpcode report: the opcode byte and the address it was fetched from (R35, R183; log 13). -/
structure Report where
  opcode : Byte
  ip : Addr
deriving DecidableEq, Repr

/-- The memory (R34, R51): its capacity MEM_SIZE, fixed at construction (R54; log 3), and its content as the list of the cells
that do not hold CLEAR_VALUE, addresses rising (log 4). -/
structure Memory where
  size : Nat
  cells : List Host.Cell
deriving DecidableEq, Repr

/-- Everything the spec gives the machine (10_state.md section 1). -/
structure State where
  /-- `A` (R20) -/
  a : Byte
  /-- `X` (R21) -/
  x : Byte
  /-- `Y` (R22) -/
  y : Byte
  /-- `PC` (R24) -/
  pc : Addr
  /-- `SP` (R23) -/
  sp : Addr
  /-- `C`, `Z`, `I`, `D`, `B`, `V`, `N` (R27) -/
  flags : Flags
  /-- `cycles`, unbounded (R31; log 10) -/
  cycles : Nat
  /-- `run` (R32) -/
  run : RunState
  /-- `mem` and MEM_SIZE (R34, R54) -/
  mem : Memory
  /-- `ITABLE` (R33; log 18) -/
  itable : ITable
  /-- `diag`, oldest report first (R35) -/
  diag : List Report
deriving DecidableEq, Repr

/-- The reasons a step ends the `execute` call. -/
inductive Fault where
  /-- AddressOutOfBounds (R181): raised by a memory access at an address not below MEM_SIZE, that is by an opcode fetch, an operand
  fetch or a data read (`Ops.lean`, `raiseOutOfBounds`). It carries the offending address, the capacity (R53), and the state the
  abort leaves (R182), from which a later `execute` goes on (R190). Safe: the step stops where the hardware's call stops. -/
  | addressOutOfBounds (addr : Addr) (size : Nat) (left : State)
deriving DecidableEq, Repr

/-- The reasons the model gives an instruction no meaning. -/
inductive Refusal where
  /-- an instruction of the opcode table without a meaning: raised by no arm of `exec` now. Safe. -/
  | notModelled (mnemonic : String)
deriving DecidableEq, Repr

/-- All flags false, their power-up value (R27). -/
def Flags.allClear : Flags where
  carry := false
  zero := false
  interruptDisable := false
  decimal := false
  brk := false
  overflow := false
  negative := false

/-- The machine right after construction and `reset()` (R38, R210): power-up registers and flags, the default table, memory with
nothing listed (every byte CLEAR_VALUE), no report (log 21). MEM_SIZE is the spec's default (log 3). -/
def State.reset : State where
  a := 0x00
  x := 0x00
  y := 0x00
  pc := Config.resetPC
  sp := Config.resetSP
  flags := Flags.allClear
  cycles := 0
  run := .idle
  mem := { size := Config.defaultMemSize, cells := [] }
  itable := defaultTable
  diag := []

end Sys2Proof.Machine
end

