-- ==== Sys2Proof/Machine/Flags.lean ====
section
/-! DEFINITION. The flag computations (41_effects_and_flags.md): Zero and Negative. The other five flags have none (R124). -/

namespace Sys2Proof.Machine

/-- "true iff all eight bits are 0" (R122). -/
def isZero (v : Byte) : Bool := v == 0x00

/-- `v[7] = 1` (R122). -/
def isNegative (v : Byte) : Bool := v.getLsbD 7

/-- `SetZN(v)` (R122): Z and N are always written, and no other flag changes (R123). -/
def setZN (v : Byte) (f : Flags) : Flags :=
  { f with zero := isZero v, negative := isNegative v }

end Sys2Proof.Machine
end

