-- ==== Sys2Proof/Machine/Memory.lean ====
section
/-! DEFINITION. The memory contract (20_memory.md): `get`, `set`, the clearing done by `reset()`, and the canonical form. -/

namespace Sys2Proof.Machine

/-- The content of one cell. An address that is not listed holds CLEAR_VALUE (D7; log 4): the ONE place that says so. -/
def cellAt : List Host.Cell → Nat → Byte
  | [], _ => Config.clearValue
  | (k, b) :: cs, n => if k = n then b else cellAt cs n

/-- Stores a byte, keeping the addresses rising and no listed cell equal to CLEAR_VALUE. -/
def putCell : List Host.Cell → Nat → Byte → List Host.Cell
  | [], n, v => if v = Config.clearValue then [] else [(n, v)]
  | (k, b) :: cs, n, v =>
    if n < k then
      if v = Config.clearValue then (k, b) :: cs else (n, v) :: (k, b) :: cs
    else if n = k then
      if v = Config.clearValue then cs else (n, v) :: cs
    else (k, b) :: putCell cs n v

/-- `get(address) -> byte | OutOfBounds` (R51): `none` is OutOfBounds. -/
def Memory.get (m : Memory) (addr : Addr) : Option Byte :=
  if addr.toNat < m.size then some (cellAt m.cells addr.toNat) else none

/-- `set(address, byte) -> () | OutOfBounds` (R52): `none` is OutOfBounds. -/
def Memory.set (m : Memory) (addr : Addr) (v : Byte) : Option Memory :=
  if addr.toNat < m.size then some { m with cells := putCell m.cells addr.toNat v } else none

/-- Memory after `reset()`: every byte CLEAR_VALUE, the capacity as constructed (R210). -/
def Memory.cleared (m : Memory) : Memory := { m with cells := [] }

/-- Places a byte where the host loads a program, with the capacity raised to reach it (log 2). -/
def Memory.place (m : Memory) (addr : Addr) (v : Byte) : Memory :=
  { size := max m.size (addr.toNat + 1), cells := putCell m.cells addr.toNat v }

/-- Places bytes at ascending addresses, wrapping at 0xFFFF (R80). -/
def Memory.placeAll (m : Memory) (addr : Addr) : List Byte → Memory
  | [] => m
  | b :: bs => Memory.placeAll (m.place addr b) (addr + 1) bs

/-- The canonical form, which makes equal memories equal data: a legal capacity (R54), addresses strictly rising and below it, no
listed cell equal to what an unlisted one holds. -/
abbrev Memory.wf (m : Memory) : Prop :=
  memSizeOk m.size = true ∧ List.Pairwise (fun c d : Host.Cell => c.1 < d.1) m.cells ∧
    ∀ c ∈ m.cells, c.1 < m.size ∧ c.2 ≠ Config.clearValue

/-- `bs` stands in memory at `addr` and the addresses after it, wrapping at 0xFFFF, all in bounds. -/
def Memory.holds (m : Memory) (addr : Addr) : List Byte → Prop
  | [] => True
  | b :: bs => m.get addr = some b ∧ Memory.holds m (addr + 1) bs

end Sys2Proof.Machine
end

