-- ==== Sys2Proof/Machine/Ops.lean ====
section
/-! DEFINITION. The named operations over state and memory (R8): the updates of one state element, the access primitives MemRead,
MemWrite, FetchByte, ReadByte (R51, R52, R70, R71), and the two error conditions (60_exceptions.md). -/

namespace Sys2Proof.Machine

/-! ### One element of the state at a time -/

/-- `PC <- (PC + 1) mod 65536` (R26, R70). -/
def State.advancePc (s : State) : State := { s with pc := s.pc + 1 }

/-- `cycles <- cycles + n` (R31). -/
def State.charge (s : State) (n : Nat) : State := { s with cycles := s.cycles + n }

/-- `A <- v`. -/
def State.setA (s : State) (v : Byte) : State := { s with a := v }

/-- Writes the flags. -/
def State.setFlags (s : State) (f : Flags) : State := { s with flags := f }

/-- `run <- r` (R32). -/
def State.setRun (s : State) (r : RunState) : State := { s with run := r }

/-- Replaces the memory. -/
def State.setMem (s : State) (m : Memory) : State := { s with mem := m }

/-- `diag <- diag ++ [r]` (R184). -/
def State.addReport (s : State) (r : Report) : State := { s with diag := s.diag ++ [r] }

/-! ### An access that may abort -/

/-- What an access or a resolver ends in: a value and the state after it, or the error that ends the call (R8: "a `raise` ends the
current instruction and the current `execute` call at once"). -/
inductive Access (α : Type) where
  | done (v : α) (s : State)
  | abort (f : Fault)
deriving DecidableEq, Repr

/-- Goes on with the value and the state, unless the access raised. -/
def Access.bind {α β : Type} (acc : Access α) (f : α → State → Access β) : Access β :=
  match acc with
  | .done v s => f v s
  | .abort e => .abort e

/-! ### The two error conditions -/

/-- `raise AddressOutOfBounds(addr, MEM_SIZE)` (R181, R182), the one place an abort is taken: nothing of what earlier accesses did
is undone, the failing access adds nothing, `run` goes back to Idle (D9, D10; log 11). Neither error saves a register, changes a
mode or goes to a handler (R189), so there is no return from one (R190): the next `execute` goes on from the state left. -/
def raiseOutOfBounds {α : Type} (addr : Addr) (s : State) : Access α :=
  .abort (.addressOutOfBounds addr s.mem.size (s.setRun .idle))

/-- `Report(op, ip)` (R184): the UndefinedOpcode report, and "nothing else changes" (log 13). -/
def reportUndefined (op : Byte) (ip : Addr) (s : State) : State :=
  s.addReport { opcode := op, ip := ip }

/-! ### The access primitives -/

/-- `MemRead(addr, 1)` (R51). -/
def memRead (addr : Addr) (s : State) : Access Byte :=
  match s.mem.get addr with
  | some b => .done b s
  | none => raiseOutOfBounds addr s

/-- `MemWrite(addr, 1, v)` (R52): a port no instruction in scope uses. -/
def memWrite (addr : Addr) (v : Byte) (s : State) : Access Unit :=
  match s.mem.set addr v with
  | some m => .done () (s.setMem m)
  | none => raiseOutOfBounds addr s

/-- `FetchByte()` (R70): the read comes first (D9; log 11). -/
def fetchByte (s : State) : Access Byte :=
  (memRead s.pc s).bind fun b t => .done b (t.advancePc.charge Config.fetchCost)

/-- `ReadByte(addr)` (R71): the read comes first (D9; log 11), and costs a cycle (D3; log 7). -/
def readByte (addr : Addr) (s : State) : Access Byte :=
  (memRead addr s).bind fun b t => .done b (t.charge Config.dataReadCost)

/-- `n` bytes of the instruction stream, in ascending order (R100). -/
def fetchBytes : Nat → State → Access (List Byte)
  | 0, s => .done [] s
  | n + 1, s => (fetchByte s).bind fun b t => (fetchBytes n t).bind fun bs u => .done (b :: bs) u

end Sys2Proof.Machine
end

