-- ==== Sys2Proof/Machine/Operands.lean ====
section
/-! DEFINITION. The six addressing-mode resolvers (40_addressing_modes.md). Each is its stream bytes followed by its operand half:
what the mode does once its operand bytes are consumed (R100: the stream bytes come first, then the index cycle, then the read). -/

namespace Sys2Proof.Machine

/-! ### Effective addresses -/

/-- `zext_16(b)` (R6, R84): an address of page zero. -/
def zeroPageAddr (b : Byte) : Addr := b.setWidth 16

/-- `zext_16((base + index) mod 256)` (R84, R107): the sum is formed in 8 bits, the carry discarded. -/
def indexedAddr (base index : Byte) : Addr := zeroPageAddr (base + index)

/-! ### Operand halves -/

/-- Immediate (R101): "the fetched byte itself". -/
def operandImmediate (imm8 : Byte) (s : State) : Access Byte := .done imm8 s

/-- Zero Page (R102): "byte at the 8-bit address". -/
def operandZeroPage (zp8 : Byte) (s : State) : Access Byte := readByte (zeroPageAddr zp8) s

/-- An indexed zero-page mode (R103, R104): the index cycle is charged before the data read (D11; log 12). -/
def operandIndexed (base8 index : Byte) (s : State) : Access Byte :=
  readByte (indexedAddr base8 index) (s.charge Config.indexAddCost)

/-- Zero Page,X (R103). -/
def operandZeroPageX (base8 : Byte) (s : State) : Access Byte := operandIndexed base8 s.x s

/-- Zero Page,Y (R104). -/
def operandZeroPageY (base8 : Byte) (s : State) : Access Byte := operandIndexed base8 s.y s

/-- Absolute (R105): "byte at that address". -/
def operandAbsolute (abs16 : Addr) (s : State) : Access Byte := readByte abs16 s

/-- Accumulator (R106): "current accumulator value". -/
def operandAccumulator (s : State) : Access Byte := .done s.a s

/-! ### The resolvers -/

/-- `ResolveImmediate()` (R101). -/
def resolveImmediate (s : State) : Access Byte := (fetchByte s).bind operandImmediate

/-- `ResolveZeroPage()` (R102). -/
def resolveZeroPage (s : State) : Access Byte := (fetchByte s).bind operandZeroPage

/-- `ResolveZeroPageX()` (R103). -/
def resolveZeroPageX (s : State) : Access Byte := (fetchByte s).bind operandZeroPageX

/-- `ResolveZeroPageY()` (R104). -/
def resolveZeroPageY (s : State) : Access Byte := (fetchByte s).bind operandZeroPageY

/-- `ResolveAbsolute()` (R105): low byte, then high byte. -/
def resolveAbsolute (s : State) : Access Byte :=
  (fetchByte s).bind fun lo t => (fetchByte t).bind fun hi u => operandAbsolute (joinBytes hi lo) u

/-- `ResolveAccumulator()` (R106). -/
def resolveAccumulator (s : State) : Access Byte := operandAccumulator s

/-- The resolver a table entry names (R100). -/
def resolve (r : Resolver) (s : State) : Access Byte :=
  match r with
  | .immediate => resolveImmediate s
  | .zeroPage => resolveZeroPage s
  | .zeroPageX => resolveZeroPageX s
  | .zeroPageY => resolveZeroPageY s
  | .absolute => resolveAbsolute s
  | .accumulator => resolveAccumulator s

end Sys2Proof.Machine
end

