-- ==== Sys2Proof/Machine/Adapter.lean ====
section
/-! DEFINITION. The pure transformation, the effect applier and the instruction adapter (R120, R121, R135, R136). -/

namespace Sys2Proof.Machine

/-- The pure transformation `f` (R135): a function of the operand alone. Identity: the operand itself (R136; log 20). -/
def transformByte : Transform → Byte → Byte
  | .identity, v => v
  | .table values, v => values[v.toNat]'v.isLt

/-- `ApplyLoadA(v)` (R121): the register first, then the flags from the stored value (R120). -/
def applyLoadA (v : Byte) (s : State) : State :=
  (s.setA v).setFlags (setZN v s.flags)

/-- The applier a table entry names (R120). -/
def applyEffect : Applier → Byte → State → State
  | .loadA, v, s => applyLoadA v s

/-- Stages (b) and (c) of the adapter (R135), after the operand: "If the resolver raises, `f` and the applier do not run". -/
def adapt (f : Transform) (applier : Applier) (operand : Access Byte) : Host.Outcome State Fault Refusal :=
  match operand with
  | .done v s => .next (applyEffect applier (transformByte f v) s)
  | .abort e => .fault e

/-- `ExecInstr(resolver, f, applier)` (R135), after the opcode byte has been fetched. -/
def execInstr (ins : Instruction) (s : State) : Host.Outcome State Fault Refusal :=
  adapt ins.transform ins.applier (resolve ins.resolver s)

end Sys2Proof.Machine
end

