-- ==== Sys2Proof/Machine/Lda.lean ====
section
/-! DEFINITION. The load-accumulator family (42_lda.md): the meaning of each instruction once its opcode and operand bytes are
consumed, that is the operand half of its resolver, the identity and LoadA. -/

namespace Sys2Proof.Machine

/-- LDA immediate (R137). -/
def execLdaImm (imm8 : Byte) (s : State) : Host.Outcome State Fault Refusal :=
  adapt .identity .loadA (operandImmediate imm8 s)

/-- LDA zero page (R138). -/
def execLdaZp (zp8 : Byte) (s : State) : Host.Outcome State Fault Refusal :=
  adapt .identity .loadA (operandZeroPage zp8 s)

/-- LDA zero page,X (R139). -/
def execLdaZpx (base8 : Byte) (s : State) : Host.Outcome State Fault Refusal :=
  adapt .identity .loadA (operandZeroPageX base8 s)

/-- LDA absolute (R140). -/
def execLdaAbs (abs16 : Addr) (s : State) : Host.Outcome State Fault Refusal :=
  adapt .identity .loadA (operandAbsolute abs16 s)

end Sys2Proof.Machine
end

