-- ==== Sys2Proof/Machine/Dispatch.lean ====
section
/-! DEFINITION. One arm per instruction of the opcode table: its meaning, on the state in which PC and cycles are past the
instruction's bytes. -/

namespace Sys2Proof.Machine

def exec (i : Instr) (s : State) : Host.Outcome State Fault Refusal :=
  match i with
  | .ldaImm imm8 => Sys2Proof.Machine.execLdaImm imm8 s
  | .ldaZp zp8 => Sys2Proof.Machine.execLdaZp zp8 s
  | .ldaZpx base8 => Sys2Proof.Machine.execLdaZpx base8 s
  | .ldaAbs abs16 => Sys2Proof.Machine.execLdaAbs abs16 s

end Sys2Proof.Machine
end

