-- ==== Sys2Proof/Machine/Fetch.lean ====
section
/-! DEFINITION. Fetching one instruction: opcode, lookup, operand bytes (R158 to R161), and placing one for `withFetchWord`. -/

namespace Sys2Proof.Machine

/-- What the fetch of one instruction ends in. -/
inductive Fetched where
  /-- an instruction of the opcode table, with the state after all its bytes -/
  | instr (i : Instr) (s : State)
  /-- a table entry that is no row of the opcode table (on Zero Page,Y or Accumulator, or with a transformation other than the
  identity), with the state after its opcode byte: the default table has none (C4), another table may (R174; logs 18, 25) -/
  | unit (ins : Instruction) (s : State)
  /-- a lookup miss, with the state after the opcode byte (R161) -/
  | miss (op : Byte) (s : State)
  /-- a byte could not be fetched -/
  | abort (f : Fault)
deriving DecidableEq, Repr

/-- Opcode fetch (R159), lookup in the table the state holds (R155), operand bytes of the entry's mode (R80), decoding (R81). -/
def fetchInstr (s : State) : Fetched :=
  match fetchByte s with
  | .abort f => .abort f
  | .done op t =>
    match s.itable.lookup op with
    | none => .miss op t
    | some ins =>
      match fetchBytes ins.resolver.streamBytes t with
      | .abort f => .abort f
      | .done operands u =>
        match decodeWith s.itable (op :: operands) with
        | .ok (i, _) => .instr i u
        | .error _ => .unit ins t

/-- Places an opcode-table word at PC, byte 0 lowest (R80). -/
def placeTableWord (s : State) (nbits w : Nat) : State :=
  s.setMem (s.mem.placeAll s.pc (tableWordBytes nbits w))

end Sys2Proof.Machine
end

