-- ==== Sys2Proof/Machine/Step.lean ====
section
/-! DEFINITION. One step of the machine: one iteration of the execute loop (R158; D20; log 1). -/

namespace Sys2Proof.Machine

/-- `Step()` (R158), for any table of triples (R174): a fetched instruction of the opcode table runs (R160), another table entry runs
by the adapter on its own resolver, transformation and applier (R135), a miss is reported and the loop goes on (R161), a byte that cannot be
fetched or read ends the call (R168). -/
def step (s : State) : Host.Outcome State Fault Refusal :=
  match fetchInstr s with
  | .instr i t => exec i t
  | .unit ins t => execInstr ins t
  | .miss op t => .next (reportUndefined op s.pc t)
  | .abort f => .fault f

/-- The state with an opcode-table word placed where `step` fetches next, which is PC (log 2). -/
def State.withFetchWord (s : State) (nbits w : Nat) : State := placeTableWord s nbits w

end Sys2Proof.Machine
end

