-- ==== Sys2Proof/Machine/Pseudocode.lean ====
section
/-! DEFINITION. The spec's `Step()` as R158 writes it: the whole adapter runs after the opcode byte, operand bytes and data read
interleaved with nothing taken out. `step` fetches, decodes and dispatches instead; a statement says the two are one function. -/

namespace Sys2Proof.Machine

/-- `Step()` (R158), line by line. -/
def stepByPseudocode (s : State) : Host.Outcome State Fault Refusal :=
  match fetchByte s with
  | .abort f => .fault f
  | .done op t =>
    match s.itable.lookup op with
    | some ins => execInstr ins t
    | none => .next (reportUndefined op s.pc t)

end Sys2Proof.Machine
end

