-- ==== Sys2Proof/Machine/Surface.lean ====
section
/-! DEFINITION. The public surface (R169): `new(memory)`, `reset()`, `execute(cycle_budget)` and the read-only accessors. -/

namespace Sys2Proof.Machine

/-! ### Construction and reset -/

/-- `new(memory)` (R170): power-up registers, flags, counter and table; the memory as the host supplied it (D5; log 9). -/
def hostNew (m : Memory) : State where
  a := 0x00
  x := 0x00
  y := 0x00
  pc := Config.resetPC
  sp := Config.resetSP
  flags := Flags.allClear
  cycles := 0
  run := .idle
  mem := m
  itable := defaultTable
  diag := []

/-- `reset()` (R210): as power-up, with the memory cleared; the reports stay (R35; log 13). -/
def hostReset (s : State) : State :=
  { hostNew s.mem.cleared with run := s.run, diag := s.diag }

/-! ### The execute loop -/

/-- What `execute` returns (R169). -/
inductive CallResult where
  /-- `Ok` -/
  | ok
  /-- `Error(AddressOutOfBounds(addr, size))` (R168) -/
  | error (addr : Addr) (size : Nat)
  /-- the step had no meaning for an instruction: not a result of the hardware, and no step ends so -/
  | refused (r : Refusal)
deriving DecidableEq, Repr

/-- "cycles consumed", which the loop compares with its budget (R164), under a basis. -/
def consumed (basis : BudgetBasis) (start : Nat) (s : State) : Nat :=
  match basis with
  | .perCall => s.cycles - start
  | .sinceReset => s.cycles

/-- The loop of R162. `fuel` bounds the iterations; a step adds at least 1 to `cycles`, so `budget` iterations always suffice (R166;
log 19). The budget is tested between steps only (R163). -/
def runLoop (basis : BudgetBasis) (start budget : Nat) : Nat → State → CallResult × State
  | 0, s => (.ok, s)
  | fuel + 1, s =>
    if consumed basis start s < budget then
      match step s with
      | .next t => runLoop basis start budget fuel t
      | .fault (.addressOutOfBounds addr size left) => (.error addr size, left)
      | .refused r => (.refused r, s)
    else (.ok, s)

/-- `execute(budget)` (R162) under a basis: Running on entry, Idle on return, whether normally or by abort (R32). -/
def executeWith (basis : BudgetBasis) (budget : Nat) (s : State) : CallResult × State :=
  let r := runLoop basis s.cycles budget budget (s.setRun .running)
  (r.1, r.2.setRun .idle)

/-- `execute(budget)` (R162) under the basis in force (R164; D4; log 8). -/
def execute (budget : Nat) (s : State) : CallResult × State :=
  executeWith Config.budgetBasis budget s

/-! ### Accessors and requests -/

/-- What the host can read (R39). -/
inductive Accessor where
  | a
  | x
  | y
  | pc
  | sp
  | carry
  | zero
  | interruptDisable
  | decimal
  | brk
  | overflow
  | negative
  | cycles
deriving DecidableEq, Repr

/-- What the host asks of a constructed core (R169). -/
inductive HostRequest where
  | reset
  | execute (budget : Nat)
  | inspect (what : Accessor)
deriving DecidableEq, Repr

/-- What the host is answered. -/
inductive HostAnswer where
  | nothing
  | called (r : CallResult)
  | byte (v : Byte)
  | word (v : Addr)
  | flag (v : Bool)
  | count (n : Nat)
deriving DecidableEq, Repr

/-- The value an accessor gives (R39): "An accessor changes no state." -/
def inspect (what : Accessor) (s : State) : HostAnswer :=
  match what with
  | .a => .byte s.a
  | .x => .byte s.x
  | .y => .byte s.y
  | .pc => .word s.pc
  | .sp => .word s.sp
  | .carry => .flag s.flags.carry
  | .zero => .flag s.flags.zero
  | .interruptDisable => .flag s.flags.interruptDisable
  | .decimal => .flag s.flags.decimal
  | .brk => .flag s.flags.brk
  | .overflow => .flag s.flags.overflow
  | .negative => .flag s.flags.negative
  | .cycles => .count s.cycles

/-- The effect and the answer of a request made with `run = Idle`. -/
def serve (r : HostRequest) (s : State) : State × HostAnswer :=
  match r with
  | .reset => (hostReset s, .nothing)
  | .execute budget => ((execute budget s).2, .called (execute budget s).1)
  | .inspect what => (s, inspect what s)

/-- A request to the core: served when Idle, no move when Running (R167; D18; log 16). -/
def hostCall (r : HostRequest) (s : State) : Option (State × HostAnswer) :=
  match s.run with
  | .idle => some (serve r s)
  | .running => none

end Sys2Proof.Machine
end

