-- ==== Sys2Proof/Safety.lean ====
section
/-! DEFINITION. What counts as a sound state and a safe run, in the terms the statements use. -/

namespace Sys2Proof.Machine

/-- The invariant of the core: the memory has its canonical form, an opcode is a unique key of the table (R93), and Z and N are
never both true (R29, R122). -/
structure State.Inv (s : State) : Prop where
  memory : s.mem.wf
  table : s.itable.wf
  notZeroAndNegative : ¬ (s.flags.zero = true ∧ s.flags.negative = true)

/-- Every report names a byte that stands in memory at its address and has no table entry (R183). -/
def State.reportsTrue (s : State) : Prop :=
  ∀ r ∈ s.diag, s.mem.get r.ip = some r.opcode ∧ s.itable.lookup r.opcode = none

/-- The state after the value `v` is loaded, in the words of R121: A is the value, Z says it is 0, N says it is 128 or more, and
nothing else changes. -/
def State.loaded (s : State) (v : Byte) : State :=
  { s with a := v, flags := { s.flags with zero := decide (v.toNat = 0), negative := decide (128 ≤ v.toNat) } }

/-- A step is safe when it completes: it neither ends the call nor is refused. -/
def State.safeStep (s : State) : Prop := ∃ t, step s = .next t

end Sys2Proof.Machine
end

