-- ==== Sys2Proof/Certificates/Slice0/Obligations.lean ====
section
/-! DEFINITION. The statements for the provers, from the spec's numbered rules. "log <n>" is notes/assumptions/<n>.md, D<n> and
C<n> are the spec's own decisions (92, 90): a statement that rests on one says so. -/

open Sys2Proof Sys2Proof.Machine

/-! ### Reset, construction, accessors -/

/-- R38, R210: `reset()` on any idle core. The memory's clear value 0x00 is the spec's decision D7 (log 4). -/
def Obligations.ResetPowersUpEveryElement : Prop :=
  ∀ s : State, s.run = .idle →
    (hostReset s).pc = 0xFF00 ∧ (hostReset s).sp = 0x0100 ∧
    (hostReset s).a = 0 ∧ (hostReset s).x = 0 ∧ (hostReset s).y = 0 ∧
    (hostReset s).flags = ⟨false, false, false, false, false, false, false⟩ ∧
    (hostReset s).cycles = 0 ∧ (hostReset s).run = .idle ∧
    (hostReset s).itable = defaultTable ∧ (hostReset s).diag = s.diag ∧
    (hostReset s).mem.size = s.mem.size ∧
    ∀ addr : Addr, (hostReset s).mem.get addr = if addr.toNat < s.mem.size then some 0x00 else none

/-- R170, R211: `new(memory)` gives the power-up values and keeps the supplied memory (the spec's decision D5, log 9). -/
def Obligations.ConstructionKeepsSuppliedMemory : Prop :=
  ∀ m : Memory,
    (hostNew m).pc = 0xFF00 ∧ (hostNew m).sp = 0x0100 ∧
    (hostNew m).a = 0 ∧ (hostNew m).x = 0 ∧ (hostNew m).y = 0 ∧
    (hostNew m).flags = ⟨false, false, false, false, false, false, false⟩ ∧
    (hostNew m).cycles = 0 ∧ (hostNew m).run = .idle ∧ (hostNew m).itable = defaultTable ∧
    (hostNew m).diag = [] ∧ (hostNew m).mem = m

/-- R213 and R165: `reset()` then `execute(0)` leaves the power-up registers, flags and counter; `execute(0)` changes no idle core. -/
def Obligations.ExecuteZeroRunsNoStep : Prop :=
  (∀ s : State, s.run = .idle → execute 0 s = (.ok, s)) ∧
  ∀ s : State, s.run = .idle →
    (execute 0 (hostReset s)).1 = .ok ∧
    (execute 0 (hostReset s)).2.pc = 0xFF00 ∧ (execute 0 (hostReset s)).2.sp = 0x0100 ∧
    (execute 0 (hostReset s)).2.a = 0 ∧ (execute 0 (hostReset s)).2.x = 0 ∧ (execute 0 (hostReset s)).2.y = 0 ∧
    (execute 0 (hostReset s)).2.flags = ⟨false, false, false, false, false, false, false⟩ ∧
    (execute 0 (hostReset s)).2.cycles = 0

/-- R39: each accessor gives the element it names, and an accessor changes no state. -/
def Obligations.AccessorsReadWithoutChange : Prop :=
  ∀ s : State, s.run = .idle →
    hostCall (.inspect .a) s = some (s, .byte s.a) ∧ hostCall (.inspect .x) s = some (s, .byte s.x) ∧
    hostCall (.inspect .y) s = some (s, .byte s.y) ∧ hostCall (.inspect .pc) s = some (s, .word s.pc) ∧
    hostCall (.inspect .sp) s = some (s, .word s.sp) ∧
    hostCall (.inspect .carry) s = some (s, .flag s.flags.carry) ∧
    hostCall (.inspect .zero) s = some (s, .flag s.flags.zero) ∧
    hostCall (.inspect .interruptDisable) s = some (s, .flag s.flags.interruptDisable) ∧
    hostCall (.inspect .decimal) s = some (s, .flag s.flags.decimal) ∧
    hostCall (.inspect .brk) s = some (s, .flag s.flags.brk) ∧
    hostCall (.inspect .overflow) s = some (s, .flag s.flags.overflow) ∧
    hostCall (.inspect .negative) s = some (s, .flag s.flags.negative) ∧
    hostCall (.inspect .cycles) s = some (s, .count s.cycles)

/-- R167: a core that is Running has no move for a request (the spec's decision D18, log 16); an Idle one serves every request and
is Idle again afterwards. -/
def Obligations.RequestsAreServedWhenIdleOnly : Prop :=
  ∀ (r : HostRequest) (s : State),
    (s.run = .running → hostCall r s = none) ∧
    (s.run = .idle → ∃ t answer, hostCall r s = some (t, answer) ∧ t.run = .idle)

/-! ### Memory -/

/-- R53: the out-of-bounds answer of a read and of a write is the pair of the offending address and MEM_SIZE. -/
def Obligations.OutOfBoundsAnswerNamesAddressAndSize : Prop :=
  ∀ (addr : Addr) (v : Byte) (s : State), s.mem.size ≤ addr.toNat →
    (∃ left, memRead addr s = .abort (.addressOutOfBounds addr s.mem.size left)) ∧
    (∃ left, memWrite addr v s = .abort (.addressOutOfBounds addr s.mem.size left))

/-- R51, R50: below MEM_SIZE, and only there, `MemRead` gives a byte and changes no state; with the whole 16-bit space in bounds every
address answers. That a read has no side effect on a device is D13 (log 14). -/
def Obligations.MemReadAnswersBelowMemSizeOnly : Prop :=
  ∀ (addr : Addr) (s : State),
    ((∃ b, memRead addr s = .done b s) ↔ addr.toNat < s.mem.size) ∧
    (∀ b t, memRead addr s = .done b t → t = s ∧ s.mem.get addr = some b) ∧
    (s.mem.size = 65536 → ∃ b, memRead addr s = .done b s)

/-- R52: `MemWrite` in bounds stores the one byte and changes nothing else; out of bounds it raises and the write changes nothing (the
run state goes to Idle with the raise, as at every raise: D10, log 11); no step, completed or aborted, writes memory. The premise is the
memory's canonical form, which every operation keeps. -/
def Obligations.MemWriteStoresOneByte : Prop :=
  (∀ (addr : Addr) (v : Byte) (s : State), s.mem.wf → addr.toNat < s.mem.size →
    ∃ t, memWrite addr v s = .done () t ∧ t = { s with mem := t.mem } ∧ t.mem.size = s.mem.size ∧
      t.mem.get addr = some v ∧ ∀ addr', addr' ≠ addr → t.mem.get addr' = s.mem.get addr') ∧
  (∀ (addr : Addr) (v : Byte) (s : State), s.mem.size ≤ addr.toNat →
    memWrite addr v s = .abort (.addressOutOfBounds addr s.mem.size { s with run := .idle })) ∧
  (∀ s t : State, step s = .next t → t.mem = s.mem) ∧
  ∀ (s : State) (addr : Addr) (n : Nat) (left : State),
    step s = .fault (.addressOutOfBounds addr n left) → left.mem = s.mem

/-- Two memories in canonical form with the same capacity and the same bytes are the same data (log 4). -/
def Obligations.CanonicalMemoryIsItsContent : Prop :=
  ∀ m m' : Memory, m.wf → m'.wf → m.size = m'.size → (∀ addr : Addr, m.get addr = m'.get addr) → m = m'

/-- R70, R71: the two accounting primitives. The read comes first (the spec's decision D9, log 11); a data read costs one cycle
(D3 and C1, log 7). -/
def Obligations.AccountingPrimitives : Prop :=
  ∀ (s : State) (addr : Addr),
    (∀ b, s.mem.get s.pc = some b → fetchByte s = .done b { s with pc := s.pc + 1, cycles := s.cycles + 1 }) ∧
    (s.mem.get s.pc = none → fetchByte s = .abort (.addressOutOfBounds s.pc s.mem.size { s with run := .idle })) ∧
    (∀ b, s.mem.get addr = some b → readByte addr s = .done b { s with cycles := s.cycles + 1 }) ∧
    (s.mem.get addr = none → readByte addr s = .abort (.addressOutOfBounds addr s.mem.size { s with run := .idle }))

/-! ### Instruction table, decoder, encoder -/

/-- R155, R93: after any sequence of registrations an opcode answers the Instruction last registered for it, or none. -/
def Obligations.LookupAnswersLastRegistration : Prop :=
  ∀ (regs : List (Byte × Instruction)) (op : Byte),
    ITable.lookup (regs.foldl (fun t e => ITable.register t e.1 e.2) []) op =
      (regs.reverse.find? (fun e => e.1 == op)).map Prod.snd

/-- R87, R88: the default table has exactly four entries. Its content and its opcode bytes are the spec's decisions D2 and D1 (logs
6 and 5). -/
def Obligations.DefaultTableHasFourEntries : Prop :=
  ∀ op : Byte, defaultTable.lookup op =
    if op = 0xA9 then some ⟨.immediate, .identity, .loadA⟩
    else if op = 0xA5 then some ⟨.zeroPage, .identity, .loadA⟩
    else if op = 0xB5 then some ⟨.zeroPageX, .identity, .loadA⟩
    else if op = 0xAD then some ⟨.absolute, .identity, .loadA⟩
    else none

/-- R87, D1: whatever pairwise distinct bytes the four opcode parameters are, and whatever bytes follow, decoding the encoding of an
instruction gives it back. -/
def Obligations.DecodeInvertsEncodeForAnyOpcodes : Prop :=
  ∀ o : Opcodes, o.distinct = true → ∀ (i : Instr) (rest : List Byte), i.wf = true →
    decodeWith (buildTable o) (encodeWith o i ++ rest) = .ok (i, rest)

/-- R81, R93: each byte string has one reading: what decodes to an instruction begins with that instruction's encoding. -/
def Obligations.DecodedBytesAreTheEncoding : Prop :=
  ∀ (o : Opcodes) (bytes rest : List Byte) (i : Instr),
    decodeWith (buildTable o) bytes = .ok (i, rest) → bytes = encodeWith o i ++ rest

/-- R83, R85: the immediate operand is byte 1 as it is; the absolute address is byte 2 * 256 + byte 1, the low byte first. -/
def Obligations.DecodeAssemblesOperands : Prop :=
  ∀ (t : ITable) (op : Byte) (rest : List Byte),
    (∀ imm8, t.lookup op = some ⟨.immediate, .identity, .loadA⟩ →
      decodeWith t (op :: imm8 :: rest) = .ok (.ldaImm imm8, rest)) ∧
    (∀ lo hi, t.lookup op = some ⟨.absolute, .identity, .loadA⟩ →
      decodeWith t (op :: lo :: hi :: rest) = .ok (.ldaAbs (BitVec.ofNat 16 (hi.toNat * 256 + lo.toNat)), rest))

/-- R87, R88, R91: words of the spec decode to the instructions they stand for. The opcode bytes are D1's (log 5); that LDA absolute has
an entry and EA has none is D2's (log 6); the last clause's word, byte 0 in its low bits, is laid out as log 2 says. -/
def Obligations.SpecWordsDecode : Prop :=
  decode [0xA9, 0x84] = .ok (.ldaImm 0x84, []) ∧ decode [0xA5, 0x42] = .ok (.ldaZp 0x42, []) ∧
  decode [0xB5, 0x80] = .ok (.ldaZpx 0x80, []) ∧ decode [0xAD, 0x34, 0x12] = .ok (.ldaAbs 0x1234, []) ∧
  decode [0xEA, 0x00] = .error (.undefinedOpcode 0xEA) ∧ decodeTableWord 24 0x1234AD = some (.ldaAbs 0x1234)

/-! ### Flags, appliers, addresses, resolvers -/

/-- R122, R123: Z if and only if all bits are 0, N if and only if the value is 0x80 or more, both always written, never both true, the
other five flags untouched. -/
def Obligations.ZeroAndNegativeFollowTheValue : Prop :=
  ∀ (v : Byte) (f : Flags),
    ((setZN v f).zero = true ↔ v = 0x00) ∧ ((setZN v f).negative = true ↔ 128 ≤ v.toNat) ∧
    ¬ ((setZN v f).zero = true ∧ (setZN v f).negative = true) ∧
    (setZN v f).carry = f.carry ∧ (setZN v f).interruptDisable = f.interruptDisable ∧
    (setZN v f).decimal = f.decimal ∧ (setZN v f).brk = f.brk ∧ (setZN v f).overflow = f.overflow

/-- R121: LoadA sets A, Z and N from the value and nothing else. -/
def Obligations.LoadEffectIsAccumulatorZeroNegative : Prop :=
  ∀ (v : Byte) (s : State), applyLoadA v s = s.loaded v

/-- R107, R84: the zero-page modes read at the zero-extended byte or at the 8-bit sum, always in page 0; absolute mode does no
arithmetic on its address. -/
def Obligations.ZeroPageAddressesStayInPageZero : Prop :=
  ∀ (base : Byte) (abs16 : Addr) (s : State),
    (∃ ea : Addr, ea.toNat = base.toNat ∧ ea.toNat < 256 ∧ operandZeroPage base s = readByte ea s) ∧
    (∃ (ea : Addr) (t : State), ea.toNat = (base.toNat + s.x.toNat) % 256 ∧ ea.toNat < 256 ∧ t.mem = s.mem ∧
      operandZeroPageX base s = readByte ea t) ∧
    (∃ (ea : Addr) (t : State), ea.toNat = (base.toNat + s.y.toNat) % 256 ∧ ea.toNat < 256 ∧ t.mem = s.mem ∧
      operandZeroPageY base s = readByte ea t) ∧
    operandAbsolute abs16 s = readByte abs16 s

/-- R101, R106: the Immediate resolver gives the fetched byte and moves PC and cycles by 1, raising at PC if it cannot be fetched; the
Accumulator resolver gives A and changes nothing, so a table entry on it is one byte long and costs the opcode fetch only. -/
def Obligations.ImmediateAndAccumulatorResolvers : Prop :=
  ∀ s : State,
    (∀ v, s.mem.get s.pc = some v → resolveImmediate s = .done v { s with pc := s.pc + 1, cycles := s.cycles + 1 }) ∧
    (s.mem.get s.pc = none → ∃ left, resolveImmediate s = .abort (.addressOutOfBounds s.pc s.mem.size left)) ∧
    resolveAccumulator s = .done s.a s ∧
    ∀ op, s.mem.get s.pc = some op → s.itable.lookup op = some ⟨.accumulator, .identity, .loadA⟩ →
      step s = .next ({ s with pc := s.pc + 1, cycles := s.cycles + 1 }.loaded s.a)

/-- R104: the Zero Page,Y resolver, a unit no default instruction uses. The data-read cycle is D3 (log 7), the place of the index
cycle D11 (log 12), the state left by a raise D9 and D10 (log 11). -/
def Obligations.ZeroPageYResolver : Prop :=
  ∀ (s : State) (base : Byte), s.mem.get s.pc = some base →
    (∀ v, s.mem.get (BitVec.ofNat 16 ((base.toNat + s.y.toNat) % 256)) = some v →
      resolveZeroPageY s = .done v { s with pc := s.pc + 1, cycles := s.cycles + 3 }) ∧
    (s.mem.get (BitVec.ofNat 16 ((base.toNat + s.y.toNat) % 256)) = none →
      resolveZeroPageY s = .abort (.addressOutOfBounds (BitVec.ofNat 16 ((base.toNat + s.y.toNat) % 256)) s.mem.size
        { s with pc := s.pc + 1, cycles := s.cycles + 2, run := .idle }))

/-- R100, R108, R109: a resolver that succeeds moves PC by its stream bytes and cycles by its cost, and touches nothing else. The
data-read cycle in the costs is D3 (log 7). -/
def Obligations.ResolverMovesOnlyPcAndCycles : Prop :=
  ∀ (r : Resolver) (s t : State) (v : Byte), resolve r s = .done v t →
    t = { s with
      pc := s.pc + BitVec.ofNat 16 (match r with
        | .immediate => 1 | .zeroPage => 1 | .zeroPageX => 1 | .zeroPageY => 1 | .absolute => 2 | .accumulator => 0)
      cycles := s.cycles + (match r with
        | .immediate => 1 | .zeroPage => 2 | .zeroPageX => 3 | .zeroPageY => 3 | .absolute => 3 | .accumulator => 0) }

/-! ### The instructions, after their bytes are consumed -/

/-- R137 (its effect): LDA immediate always completes, and loads its operand. -/
def Obligations.LdaImmediateLoadsItsOperand : Prop :=
  ∀ (imm8 : Byte) (s : State), exec (.ldaImm imm8) s = .next (s.loaded imm8)

/-- R138 (its effect): LDA zero page completes when its data address is readable. The data-read cycle is D3 (log 7). -/
def Obligations.LdaZeroPageLoadsTheByte : Prop :=
  ∀ (zp8 v : Byte) (s : State), s.mem.get (BitVec.ofNat 16 zp8.toNat) = some v →
    exec (.ldaZp zp8) s = .next ({ s with cycles := s.cycles + 1 }.loaded v)

/-- R139 (its effect): LDA zero page,X completes when its data address, wrapped in page 0, is readable. The data-read cycle is D3
(log 7). -/
def Obligations.LdaZeroPageXLoadsTheWrappedByte : Prop :=
  ∀ (base8 v : Byte) (s : State), s.mem.get (BitVec.ofNat 16 ((base8.toNat + s.x.toNat) % 256)) = some v →
    exec (.ldaZpx base8) s = .next ({ s with cycles := s.cycles + 2 }.loaded v)

/-- R140 (its effect): LDA absolute completes when its data address is readable. That the instruction is in the table is D2 (log 6),
the data-read cycle D3 (log 7). -/
def Obligations.LdaAbsoluteLoadsTheByte : Prop :=
  ∀ (abs16 : Addr) (v : Byte) (s : State), s.mem.get abs16 = some v →
    exec (.ldaAbs abs16) s = .next ({ s with cycles := s.cycles + 1 }.loaded v)

/-- R123, R125: the frame of all four instructions: X, Y, SP, PC, the run state, the table, the reports, the five other flags and every
byte of memory are as before; A is the byte Z and N describe. -/
def Obligations.LdaFrame : Prop :=
  ∀ (i : Instr) (s t : State), exec i s = .next t →
    t.x = s.x ∧ t.y = s.y ∧ t.sp = s.sp ∧ t.pc = s.pc ∧ t.run = s.run ∧ t.itable = s.itable ∧ t.diag = s.diag ∧
    t.flags.carry = s.flags.carry ∧ t.flags.interruptDisable = s.flags.interruptDisable ∧
    t.flags.decimal = s.flags.decimal ∧ t.flags.brk = s.flags.brk ∧ t.flags.overflow = s.flags.overflow ∧
    (t.flags.zero = true ↔ t.a = 0) ∧ (t.flags.negative = true ↔ 128 ≤ t.a.toNat) ∧
    ∀ addr : Addr, t.mem.get addr = s.mem.get addr

/-! ### One step -/

/-- R160, R86: when the bytes at PC decode to an instruction, a step is its meaning on the state with PC past them and one cycle
charged per byte. -/
def Obligations.StepRunsTheDecodedInstruction : Prop :=
  ∀ (s : State) (bytes : List Byte) (i : Instr),
    s.mem.holds s.pc bytes → decodeWith s.itable bytes = .ok (i, []) → i.wf = true →
      step s = exec i { s with pc := s.pc + BitVec.ofNat 16 i.length, cycles := s.cycles + i.length }

/-- R158: the step is the spec's `Step()` on every state and every table; it is never refused, and a completed step raises cycles by at
least 1 and moves PC by 1 to 3 modulo 65536. -/
def Obligations.StepIsTheSpecsStep : Prop :=
  (∀ s : State, step s = stepByPseudocode s) ∧
  (∀ (s : State) (r : Refusal), step s ≠ .refused r) ∧
  ∀ s t : State, step s = .next t →
    s.cycles + 1 ≤ t.cycles ∧ ∃ n, 1 ≤ n ∧ n ≤ 3 ∧ t.pc.toNat = (s.pc.toNat + n) % 65536

/-- R137, the whole step: two bytes, two cycles, the operand loaded; the operand of an opcode at 0xFFFF is at 0x0000. The opcode byte is
any the table maps to the triple, so D1 is not assumed. -/
def Obligations.LdaImmediateStep : Prop :=
  ∀ (s : State) (op imm8 : Byte), s.mem.get s.pc = some op →
    s.itable.lookup op = some ⟨.immediate, .identity, .loadA⟩ → s.mem.get (s.pc + 1) = some imm8 →
      step s = .next ({ s with pc := s.pc + 2, cycles := s.cycles + 2 }.loaded imm8)

/-- R138, the whole step: two bytes, three cycles (D3, log 7). -/
def Obligations.LdaZeroPageStep : Prop :=
  ∀ (s : State) (op zp8 v : Byte), s.mem.get s.pc = some op →
    s.itable.lookup op = some ⟨.zeroPage, .identity, .loadA⟩ → s.mem.get (s.pc + 1) = some zp8 →
    s.mem.get (BitVec.ofNat 16 zp8.toNat) = some v →
      step s = .next ({ s with pc := s.pc + 2, cycles := s.cycles + 3 }.loaded v)

/-- R139, the whole step: two bytes, four cycles (D3, log 7), X unchanged. -/
def Obligations.LdaZeroPageXStep : Prop :=
  ∀ (s : State) (op base8 v : Byte), s.mem.get s.pc = some op →
    s.itable.lookup op = some ⟨.zeroPageX, .identity, .loadA⟩ → s.mem.get (s.pc + 1) = some base8 →
    s.mem.get (BitVec.ofNat 16 ((base8.toNat + s.x.toNat) % 256)) = some v →
      step s = .next ({ s with pc := s.pc + 2, cycles := s.cycles + 4 }.loaded v)

/-- R140, the whole step: three bytes, four cycles (D2, D3, logs 6 and 7). -/
def Obligations.LdaAbsoluteStep : Prop :=
  ∀ (s : State) (op lo hi v : Byte), s.mem.get s.pc = some op →
    s.itable.lookup op = some ⟨.absolute, .identity, .loadA⟩ →
    s.mem.get (s.pc + 1) = some lo → s.mem.get (s.pc + 2) = some hi →
    s.mem.get (BitVec.ofNat 16 (hi.toNat * 256 + lo.toNat)) = some v →
      step s = .next ({ s with pc := s.pc + 3, cycles := s.cycles + 4 }.loaded v)

/-- R174, R135: the step is the same machinery for every table entry: whatever total function `f` from byte to byte the entry's
transformation is, and in every addressing mode, a step is the opcode fetch, the mode's resolver, and the load of `f` of its operand; and
where the resolver raises, `f` and the load do not run. So cycles and PC are the resolver's, whatever `f` is. That the table and its
transformations are plain data of the state is the model's choice (logs 18 and 25). -/
def Obligations.StepRunsAnyTransformation : Prop :=
  ∀ (f : Byte → Byte) (r : Resolver) (s : State) (op : Byte), s.mem.get s.pc = some op →
    s.itable.lookup op = some ⟨r, Transform.ofFunction f, .loadA⟩ →
      (∀ v t, resolve r { s with pc := s.pc + 1, cycles := s.cycles + 1 } = .done v t → step s = .next (t.loaded (f v))) ∧
      ∀ e, resolve r { s with pc := s.pc + 1, cycles := s.cycles + 1 } = .abort e → step s = .fault e

/-- R161, R184: an undefined opcode costs one cycle, moves PC by one, appends the report of the byte and its address (D12, log 13) and
changes nothing else. -/
def Obligations.UndefinedOpcodeIsReportedAndSkipped : Prop :=
  ∀ (s : State) (op : Byte), s.mem.get s.pc = some op → s.itable.lookup op = none →
    step s = .next { s with pc := s.pc + 1, cycles := s.cycles + 1, diag := s.diag ++ [⟨op, s.pc⟩] }

/-- The table of R182: the state each failing access leaves, by the spec's decisions D9, D10 and D11 (logs 11 and 12). -/
def Obligations.AbortLeavesWhatEarlierAccessesDid : Prop :=
  ∀ s : State,
    (s.mem.get s.pc = none →
      step s = .fault (.addressOutOfBounds s.pc s.mem.size { s with run := .idle })) ∧
    ∀ (op : Byte) (ins : Instruction), s.mem.get s.pc = some op → s.itable.lookup op = some ins →
      (ins.resolver ≠ .accumulator → s.mem.get (s.pc + 1) = none →
        step s = .fault (.addressOutOfBounds (s.pc + 1) s.mem.size
          { s with pc := s.pc + 1, cycles := s.cycles + 1, run := .idle })) ∧
      ∀ b1 : Byte, s.mem.get (s.pc + 1) = some b1 →
        (ins.resolver = .absolute → s.mem.get (s.pc + 2) = none →
          step s = .fault (.addressOutOfBounds (s.pc + 2) s.mem.size
            { s with pc := s.pc + 2, cycles := s.cycles + 2, run := .idle })) ∧
        (ins.resolver = .zeroPage → s.mem.get (BitVec.ofNat 16 b1.toNat) = none →
          step s = .fault (.addressOutOfBounds (BitVec.ofNat 16 b1.toNat) s.mem.size
            { s with pc := s.pc + 2, cycles := s.cycles + 2, run := .idle })) ∧
        (ins.resolver = .zeroPageX → s.mem.get (BitVec.ofNat 16 ((b1.toNat + s.x.toNat) % 256)) = none →
          step s = .fault (.addressOutOfBounds (BitVec.ofNat 16 ((b1.toNat + s.x.toNat) % 256)) s.mem.size
            { s with pc := s.pc + 2, cycles := s.cycles + 3, run := .idle })) ∧
        (∀ b2 : Byte, ins.resolver = .absolute → s.mem.get (s.pc + 2) = some b2 →
          s.mem.get (BitVec.ofNat 16 (b2.toNat * 256 + b1.toNat)) = none →
          step s = .fault (.addressOutOfBounds (BitVec.ofNat 16 (b2.toNat * 256 + b1.toNat)) s.mem.size
            { s with pc := s.pc + 3, cycles := s.cycles + 3, run := .idle }))

/-- R181, R182: a step faults only at an address not below MEM_SIZE, names it and MEM_SIZE, and leaves everything but PC, cycles (at most
3 more) and the run state as it was (D9, D10, log 11). -/
def Obligations.FaultsOnlyOutOfBoundsAndTouchNoRegister : Prop :=
  ∀ (s left : State) (addr : Addr) (n : Nat), step s = .fault (.addressOutOfBounds addr n left) →
    n = s.mem.size ∧ s.mem.size ≤ addr.toNat ∧
    left = { s with pc := left.pc, cycles := left.cycles, run := .idle } ∧
    s.cycles ≤ left.cycles ∧ left.cycles ≤ s.cycles + 3

/-- R54: with the whole address space in bounds every step completes, whatever the table; with MEM_SIZE at most 0xFF00 the first
opcode fetch after reset, and after construction, raises. Both are the spec's own derivations. That the fetch leaves the core as reset
or construction made it is not R54's but D9's and D10's (log 11). -/
def Obligations.FullMemoryNeverFaults : Prop :=
  (∀ s : State, s.mem.size = 65536 → s.safeStep) ∧
  (∀ s : State, s.run = .idle → s.mem.size ≤ 0xFF00 →
    step (hostReset s) = .fault (.addressOutOfBounds 0xFF00 s.mem.size (hostReset s))) ∧
  ∀ m : Memory, m.size ≤ 0xFF00 →
    step (hostNew m) = .fault (.addressOutOfBounds 0xFF00 m.size (hostNew m))

/-- R26: PC moves by 1 per byte fetched, modulo 65536, and reset sets it. A completed step moves it by exactly the length of what it ran:
1 for an undefined opcode, else 1 plus the stream bytes of the mode (2 for the three two-byte LDA forms, 3 for absolute). An aborted
step moves it by the bytes it fetched before the access that failed (D9, log 11): none if the opcode byte cannot be fetched, else the
readable bytes up to the first that is not, or all of them if it is the data read that fails. The data read, the effect, a report, a write
and the accessors do not move it; reset and construction set it. -/
def Obligations.ProgramCounterMovesByInstructionLength : Prop :=
  (∀ s t : State, step s = .next t → ∃ op, s.mem.get s.pc = some op ∧
    t.pc.toNat = (s.pc.toNat + (match s.itable.lookup op with
      | none => 1
      | some ins => match ins.resolver with
        | .immediate => 2 | .zeroPage => 2 | .zeroPageX => 2 | .zeroPageY => 2 | .absolute => 3 | .accumulator => 1)) % 65536) ∧
  (∀ (s left : State) (addr : Addr) (size : Nat), step s = .fault (.addressOutOfBounds addr size left) →
    (s.mem.get s.pc = none ∧ left.pc = s.pc) ∨
    ∃ op ins n, s.mem.get s.pc = some op ∧ s.itable.lookup op = some ins ∧ 1 ≤ n ∧ n ≤ 1 + ins.resolver.streamBytes ∧
      (∀ j, j < n → s.mem.get (s.pc + BitVec.ofNat 16 j) ≠ none) ∧
      (n < 1 + ins.resolver.streamBytes → s.mem.get (s.pc + BitVec.ofNat 16 n) = none) ∧
      left.pc.toNat = (s.pc.toNat + n) % 65536) ∧
  (∀ (s t : State) (addr : Addr) (b v : Byte) (r : Report),
    (fetchByte s = .done b t → t.pc = s.pc + 1) ∧ (readByte addr s = .done b t → t.pc = s.pc) ∧
    (memWrite addr v s = .done () t → t.pc = s.pc) ∧ (applyLoadA v s).pc = s.pc ∧ (s.addReport r).pc = s.pc) ∧
  (∀ (what : Accessor) (s t : State) (answer : HostAnswer), hostCall (.inspect what) s = some (t, answer) → t.pc = s.pc) ∧
  (∀ s : State, (hostReset s).pc = 0xFF00) ∧ ∀ m : Memory, (hostNew m).pc = 0xFF00

/-- R220, R31: the cycle cost of a completed step of the default table depends on the opcode alone. Opcode bytes D1, table D2,
data-read cycle D3 (logs 5, 6, 7). -/
def Obligations.CycleCostIsFixedPerOpcode : Prop :=
  ∀ s t : State, s.itable = defaultTable → step s = .next t → ∃ op, s.mem.get s.pc = some op ∧
    t.cycles = s.cycles + (if op = 0xA9 then 2 else if op = 0xA5 then 3 else if op = 0xB5 then 4
      else if op = 0xAD then 4 else 1)

/-- R124: Carry, InterruptDisable, Decimal, Break and Overflow have no writer but reset, which clears them: no completed step writes
them, an aborted one leaves them, and of the host's requests only reset changes them. Besides, no completed step writes X, Y, SP, memory,
the table or the run state, and it only appends at most one report (D12, log 13); an aborted step changes PC, cycles and the run state
alone, which goes to Idle (D9, D10, log 11). -/
def Obligations.StepLeavesInertStateAlone : Prop :=
  (∀ s t : State, step s = .next t →
    t = { s with
      a := t.a, pc := t.pc, cycles := t.cycles, diag := t.diag
      flags := { s.flags with zero := t.flags.zero, negative := t.flags.negative } } ∧
    ∃ more, t.diag = s.diag ++ more ∧ more.length ≤ 1) ∧
  (∀ (s left : State) (addr : Addr) (n : Nat), step s = .fault (.addressOutOfBounds addr n left) →
    left = { s with pc := left.pc, cycles := left.cycles, run := .idle }) ∧
  (∀ (r : HostRequest) (s t : State) (answer : HostAnswer), r ≠ .reset → hostCall r s = some (t, answer) →
    t.flags = { s.flags with zero := t.flags.zero, negative := t.flags.negative }) ∧
  ∀ s : State, (hostReset s).flags = ⟨false, false, false, false, false, false, false⟩

/-- R187, with R23, R28, R32, R35: what a step does is the same whatever the flags, SP, the run state and the reports are; so neither
InterruptDisable nor Break masks anything, and a step leaves both as they are; reset clears them. That the step does not look at the run
state is the model's reading of its granularity (D20, log 1); that reports are appended and never read is D12 (log 13); that an abort
leaves the run state Idle whatever it was is D10 (log 11). -/
def Obligations.FlagsStackPointerAndReportsInfluenceNothing : Prop :=
  (∀ (s : State) (f : Flags) (p : Addr) (r : RunState) (d : List Report),
    match step s, step { s with flags := f, sp := p, run := r, diag := d } with
    | .next t, .next t' =>
      t'.a = t.a ∧ t'.x = t.x ∧ t'.y = t.y ∧ t'.pc = t.pc ∧ t'.cycles = t.cycles ∧ t'.mem = t.mem ∧ t'.itable = t.itable ∧
      t'.sp = p ∧ t'.run = r ∧ (∃ more, t.diag = s.diag ++ more ∧ t'.diag = d ++ more) ∧
      t'.flags = { f with zero := t'.flags.zero, negative := t'.flags.negative } ∧
      (t'.flags.zero = t.flags.zero ∧ t'.flags.negative = t.flags.negative ∨ t.flags = s.flags ∧ t'.flags = f)
    | .fault (.addressOutOfBounds addr n left), .fault (.addressOutOfBounds addr' n' left') =>
      addr' = addr ∧ n' = n ∧ left' = { left with flags := f, sp := p, diag := d }
    | _, _ => False) ∧
  ∀ s : State, (hostReset s).flags.interruptDisable = false ∧ (hostReset s).flags.brk = false

/-- R214: a word of the opcode table placed at PC is the instruction the next step runs, in any state with canonical memory and the
default table. That a program comes to run so is the model's own convention for the host's loading (log 2). -/
def Obligations.PlacedWordRunsNext : Prop :=
  ∀ (s : State) (nbits w : Nat) (i : Instr), s.mem.wf → s.itable = defaultTable → decodeTableWord nbits w = some i →
    step (s.withFetchWord nbits w) = exec i { s.withFetchWord nbits w with
      pc := s.pc + BitVec.ofNat 16 i.length, cycles := s.cycles + i.length }

/-! ### Invariants -/

/-- The reset state meets the invariant: canonical memory, unique opcodes, Z and N not both true. -/
def Obligations.InvariantHoldsAtReset : Prop :=
  State.reset.Inv

/-- Every step keeps the invariant, and so does the state an abort leaves (which state that is: D9, D10, log 11). -/
def Obligations.EveryStepKeepsTheInvariant : Prop :=
  ∀ s : State, s.Inv →
    (∀ t, step s = .next t → t.Inv) ∧
    ∀ addr n left, step s = .fault (.addressOutOfBounds addr n left) → left.Inv

/-- Every host request keeps the invariant (an aborted call included), and construction from a well-formed memory establishes it. -/
def Obligations.EveryHostRequestKeepsTheInvariant : Prop :=
  (∀ m : Memory, m.wf → (hostNew m).Inv) ∧
  ∀ (r : HostRequest) (s t : State) (answer : HostAnswer), s.Inv → hostCall r s = some (t, answer) → t.Inv

/-- R183, R35: if every report so far names a byte that stands at its address and has no table entry, the same holds after a step
(the address is D12's, log 13). -/
def Obligations.ReportsStayTrue : Prop :=
  ∀ s t : State, s.reportsTrue → step s = .next t → t.reportsTrue

/-! ### The execute loop -/

/-- R162: the loop with enough fuel satisfies the equation of the spec's `while`, whatever the fuel (log 19), under either basis. -/
def Obligations.LoopSatisfiesTheWhileEquation : Prop :=
  ∀ (basis : BudgetBasis) (start budget fuel : Nat) (s : State), start ≤ s.cycles →
    budget - consumed basis start s ≤ fuel →
      runLoop basis start budget fuel s =
        if consumed basis start s < budget then
          match step s with
          | .next t => runLoop basis start budget fuel t
          | .fault (.addressOutOfBounds addr n left) => (.error addr n, left)
          | .refused r => (.refused r, s)
        else (.ok, s)

/-- R163, R166: a normal return has consumed at least the budget, and overshoots by at most 3 (the bound is the spec's derivation; costs
D3, log 7; basis D4, log 8). -/
def Obligations.NormalReturnMeetsTheBudget : Prop :=
  ∀ (budget : Nat) (s t : State), execute budget s = (.ok, t) →
    s.cycles + budget ≤ t.cycles ∧ t.cycles ≤ s.cycles + budget + 3 ∧ t.run = .idle

/-- R168, R169: `execute` returns Ok or the error of an access at or beyond MEM_SIZE, never anything else; with the whole address space
in bounds it returns Ok; after an error the core is Idle with the memory, X, Y, SP and the table as before (D10, log 11). -/
def Obligations.ExecuteAnswersOkOrOutOfBounds : Prop :=
  ∀ (budget : Nat) (s : State),
    ((execute budget s).1 = .ok ∨
      ∃ addr, (execute budget s).1 = .error addr s.mem.size ∧ s.mem.size ≤ addr.toNat) ∧
    (s.mem.size = 65536 → (execute budget s).1 = .ok) ∧
    (execute budget s).2.run = .idle ∧ (execute budget s).2.mem = s.mem ∧ (execute budget s).2.x = s.x ∧
    (execute budget s).2.y = s.y ∧ (execute budget s).2.sp = s.sp ∧ (execute budget s).2.itable = s.itable

/-- R164, R171: a call goes on where the last one ended: after a normal return that consumed c cycles, a call with budget n is the rest
of one call with budget c + n (basis D4, log 8; continuing D10, log 11). -/
def Obligations.ConsecutiveCallsComposeIntoOne : Prop :=
  ∀ (first second : Nat) (s t : State), execute first s = (.ok, t) →
    execute ((t.cycles - s.cycles) + second) s = execute second t

/-- R164: the two budget bases agree on a call made with the counter at 0 (the first call after construction or reset). -/
def Obligations.BudgetBasesAgreeOnTheFirstCall : Prop :=
  ∀ (budget : Nat) (s : State), s.cycles = 0 →
    executeWith .sinceReset budget s = executeWith .perCall budget s

/-- R196: budget 1 runs exactly one step (basis D4, log 8). -/
def Obligations.BudgetOneRunsOneStep : Prop :=
  ∀ s : State, execute 1 s =
    match step { s with run := .running } with
    | .next t => (.ok, { t with run := .idle })
    | .fault (.addressOutOfBounds addr n left) => (.error addr n, { left with run := .idle })
    | .refused r => (.refused r, { s with run := .idle })

/-- R190: a call made at a PC that is out of bounds aborts at once, names PC, and changes no state (D10, log 11). -/
def Obligations.CallAtUnreadablePcChangesNothing : Prop :=
  ∀ (budget : Nat) (s : State), s.run = .idle → s.mem.get s.pc = none → 0 < budget →
    execute budget s = (.error s.pc s.mem.size, s)

/-- R212: after `reset()` with the whole address space in bounds, `execute(n)` is n UndefinedOpcode steps over cleared memory (the
spec's derivation; D1, D2, D7, D12, logs 5, 6, 4, 13). -/
def Obligations.ClearedMemoryRunsUndefinedOpcodes : Prop :=
  ∀ (s : State) (n : Nat), s.run = .idle → s.mem.size = 65536 →
    execute n (hostReset s) = (.ok, { hostReset s with
      pc := 0xFF00 + BitVec.ofNat 16 n
      cycles := n
      diag := s.diag ++ (List.range n).map fun k => ⟨0x00, 0xFF00 + BitVec.ofNat 16 k⟩ })
end

