-- ==== Sys2Proof/Laws/Memory.lean ====
section
/-! SUPPORT. The memory's laws: read after write, the other addresses, and that every operation keeps the canonical form. -/

namespace Sys2Proof.Machine

/-- The cells' part of the canonical form: addresses rising, no listed CLEAR_VALUE. -/
abbrev CellsSorted (cs : List Host.Cell) : Prop :=
  List.Pairwise (fun c d : Host.Cell => c.1 < d.1) cs

theorem cellAt_nil (n : Nat) : cellAt [] n = Config.clearValue := rfl

theorem cellAt_cons (k : Nat) (b : Byte) (cs : List Host.Cell) (n : Nat) :
    cellAt ((k, b) :: cs) n = if k = n then b else cellAt cs n := rfl

/-- An address below every listed one holds CLEAR_VALUE. -/
theorem cellAt_of_lt {cs : List Host.Cell} {n : Nat} (h : ∀ c ∈ cs, n < c.1) : cellAt cs n = Config.clearValue := by
  induction cs with
  | nil => rfl
  | cons c cs ih =>
    obtain ⟨k, b⟩ := c
    have hk : n < k := h (k, b) (List.mem_cons_self ..)
    rw [cellAt_cons, if_neg (by omega)]
    exact ih fun c hc => h c (List.mem_cons_of_mem _ hc)

/-- Read after write at the same address. -/
theorem cellAt_putCell_self {cs : List Host.Cell} (h : CellsSorted cs) (n : Nat) (v : Byte) :
    cellAt (putCell cs n v) n = v := by
  induction cs with
  | nil =>
    unfold putCell
    split
    · next hv => rw [cellAt_nil, hv]
    · rw [cellAt_cons, if_pos rfl]
  | cons c cs ih =>
    obtain ⟨k, b⟩ := c
    obtain ⟨hk, hcs⟩ := List.pairwise_cons.mp h
    unfold putCell
    split
    · next hn =>
      split
      · next hv =>
        rw [hv]
        refine cellAt_of_lt fun c hc => ?_
        rcases List.mem_cons.mp hc with rfl | hc
        · exact hn
        · exact Nat.lt_trans hn (hk c hc)
      · rw [cellAt_cons, if_pos rfl]
    · split
      · next hn =>
        subst hn
        split
        · next hv => rw [hv]; exact cellAt_of_lt hk
        · rw [cellAt_cons, if_pos rfl]
      · next hn => rw [cellAt_cons, if_neg (Ne.symm hn)]; exact ih hcs

/-- A write leaves every other address alone. -/
theorem cellAt_putCell_other (cs : List Host.Cell) {n m : Nat} (v : Byte) (hne : m ≠ n) :
    cellAt (putCell cs n v) m = cellAt cs m := by
  induction cs with
  | nil =>
    unfold putCell
    split
    · rfl
    · rw [cellAt_cons, if_neg (Ne.symm hne)]
  | cons c cs ih =>
    obtain ⟨k, b⟩ := c
    unfold putCell
    split
    · split
      · rfl
      · rw [cellAt_cons, if_neg (Ne.symm hne)]
    · split
      · next hn =>
        subst hn
        split <;> simp only [cellAt_cons, if_neg (Ne.symm hne)]
      · simp only [cellAt_cons, ih]

/-- What a write can list: the written cell, or one listed before. -/
theorem mem_putCell {cs : List Host.Cell} {n : Nat} {v : Byte} {c : Host.Cell} (h : c ∈ putCell cs n v) :
    (c = (n, v) ∧ v ≠ Config.clearValue) ∨ c ∈ cs := by
  induction cs with
  | nil =>
    unfold putCell at h
    split at h
    · cases h
    · next hv => exact .inl ⟨List.mem_singleton.mp h, hv⟩
  | cons d cs ih =>
    obtain ⟨k, b⟩ := d
    unfold putCell at h
    split at h
    · split at h
      · exact .inr h
      · next hv => exact (List.mem_cons.mp h).imp (⟨·, hv⟩) id
    · split at h
      · split at h
        · exact .inr (List.mem_cons_of_mem _ h)
        · next hv => exact (List.mem_cons.mp h).imp (⟨·, hv⟩) (List.mem_cons_of_mem _)
      · rcases List.mem_cons.mp h with rfl | h
        · exact .inr (List.mem_cons_self ..)
        · exact (ih h).imp id (List.mem_cons_of_mem _)

/-- A write keeps the addresses rising. -/
theorem putCell_sorted {cs : List Host.Cell} (h : CellsSorted cs) (n : Nat) (v : Byte) : CellsSorted (putCell cs n v) := by
  induction cs with
  | nil => unfold putCell; split <;> simp [CellsSorted]
  | cons d cs ih =>
    obtain ⟨k, b⟩ := d
    obtain ⟨hk, hcs⟩ := List.pairwise_cons.mp h
    unfold putCell
    split
    · next hn =>
      split
      · exact h
      · refine List.pairwise_cons.mpr ⟨fun c hc => ?_, h⟩
        rcases List.mem_cons.mp hc with rfl | hc
        · exact hn
        · exact Nat.lt_trans hn (hk c hc)
    · split
      · next hn =>
        subst hn
        split
        · exact hcs
        · exact List.pairwise_cons.mpr ⟨hk, hcs⟩
      · next hlt hne =>
        refine List.pairwise_cons.mpr ⟨fun c hc => ?_, ih hcs⟩
        rcases mem_putCell hc with ⟨rfl, -⟩ | hc
        · show k < n
          omega
        · exact hk c hc

/-- A legal capacity, as two inequalities (R54). -/
theorem memSizeOk_iff {n : Nat} : memSizeOk n = true ↔ 1 ≤ n ∧ n ≤ 65536 := by
  unfold memSizeOk Config.maxMemSize
  rw [Bool.and_eq_true, decide_eq_true_eq, decide_eq_true_eq]

/-- `set` in bounds: the memory after it (R52). -/
theorem Memory.set_eq_some {m m' : Memory} {addr : Addr} {v : Byte} (h : m.set addr v = some m') :
    addr.toNat < m.size ∧ m' = { m with cells := putCell m.cells addr.toNat v } := by
  unfold Memory.set at h
  split at h
  · next hb => exact ⟨hb, by simpa using h.symm⟩
  · cases h

/-- `get` answers exactly the in-bounds addresses (R51). -/
theorem Memory.get_eq_some {m : Memory} {addr : Addr} {b : Byte} :
    m.get addr = some b ↔ addr.toNat < m.size ∧ cellAt m.cells addr.toNat = b := by
  unfold Memory.get
  split <;> simp_all

/-- `get` answers OutOfBounds exactly at the other addresses (R51). -/
theorem Memory.get_eq_none {m : Memory} {addr : Addr} : m.get addr = none ↔ m.size ≤ addr.toNat := by
  unfold Memory.get
  split <;> simp_all

/-- A written byte in a well-formed list of cells keeps the list below any bound that holds the address. -/
theorem putCell_entries {cs : List Host.Cell} {n size : Nat} {v : Byte} (hn : n < size)
    (h : ∀ c ∈ cs, c.1 < size ∧ c.2 ≠ Config.clearValue) :
    ∀ c ∈ putCell cs n v, c.1 < size ∧ c.2 ≠ Config.clearValue := by
  intro c hc
  rcases mem_putCell hc with ⟨rfl, hv⟩ | hc
  · exact ⟨hn, hv⟩
  · exact h c hc

/-- `set` keeps the canonical form. -/
theorem Memory.set_wf {m m' : Memory} {addr : Addr} {v : Byte} (hm : m.wf) (h : m.set addr v = some m') : m'.wf := by
  obtain ⟨hb, rfl⟩ := Memory.set_eq_some h
  exact ⟨hm.1, putCell_sorted hm.2.1 _ _, putCell_entries hb hm.2.2⟩

/-- Clearing keeps the canonical form. -/
theorem Memory.cleared_wf {m : Memory} (hm : m.wf) : m.cleared.wf :=
  ⟨hm.1, List.Pairwise.nil, fun _ hc => nomatch hc⟩

/-- Placing a byte keeps the canonical form: a 16-bit address is below the largest capacity. -/
theorem Memory.place_wf {m : Memory} (hm : m.wf) (addr : Addr) (v : Byte) : (m.place addr v).wf := by
  refine ⟨?_, putCell_sorted hm.2.1 _ _, putCell_entries (Nat.lt_of_lt_of_le (Nat.lt_succ_self _) (Nat.le_max_right ..)) ?_⟩
  · have h : 1 ≤ m.size ∧ m.size ≤ 65536 := memSizeOk_iff.mp hm.1
    have ha : addr.toNat < 65536 := addr.isLt
    refine memSizeOk_iff.mpr ?_
    show 1 ≤ max m.size (addr.toNat + 1) ∧ max m.size (addr.toNat + 1) ≤ 65536
    omega
  · exact fun c hc => ⟨Nat.lt_of_lt_of_le (hm.2.2 c hc).1 (Nat.le_max_left ..), (hm.2.2 c hc).2⟩

/-- Placing bytes keeps the canonical form. -/
theorem Memory.placeAll_wf {m : Memory} (hm : m.wf) (addr : Addr) (bs : List Byte) : (m.placeAll addr bs).wf := by
  induction bs generalizing m addr with
  | nil => exact hm
  | cons b bs ih => exact ih (Memory.place_wf hm addr b) (addr + 1)

/-- The memory of the reset state has the canonical form. -/
theorem State.reset_mem_wf : State.reset.mem.wf := by
  decide

end Sys2Proof.Machine
end

