-- ==== Sys2Proof/Laws/State.lean ====
section
/-! SUPPORT. What each named update of the state does to each field. -/

namespace Sys2Proof.Machine

variable (s : State)

/-! ### advancePc -/

@[simp] theorem State.advancePc_a : s.advancePc.a = s.a := rfl
@[simp] theorem State.advancePc_x : s.advancePc.x = s.x := rfl
@[simp] theorem State.advancePc_y : s.advancePc.y = s.y := rfl
@[simp] theorem State.advancePc_pc : s.advancePc.pc = s.pc + 1 := rfl
@[simp] theorem State.advancePc_sp : s.advancePc.sp = s.sp := rfl
@[simp] theorem State.advancePc_flags : s.advancePc.flags = s.flags := rfl
@[simp] theorem State.advancePc_cycles : s.advancePc.cycles = s.cycles := rfl
@[simp] theorem State.advancePc_run : s.advancePc.run = s.run := rfl
@[simp] theorem State.advancePc_mem : s.advancePc.mem = s.mem := rfl
@[simp] theorem State.advancePc_itable : s.advancePc.itable = s.itable := rfl
@[simp] theorem State.advancePc_diag : s.advancePc.diag = s.diag := rfl

/-! ### charge -/

@[simp] theorem State.charge_a (n : Nat) : (s.charge n).a = s.a := rfl
@[simp] theorem State.charge_x (n : Nat) : (s.charge n).x = s.x := rfl
@[simp] theorem State.charge_y (n : Nat) : (s.charge n).y = s.y := rfl
@[simp] theorem State.charge_pc (n : Nat) : (s.charge n).pc = s.pc := rfl
@[simp] theorem State.charge_sp (n : Nat) : (s.charge n).sp = s.sp := rfl
@[simp] theorem State.charge_flags (n : Nat) : (s.charge n).flags = s.flags := rfl
@[simp] theorem State.charge_cycles (n : Nat) : (s.charge n).cycles = s.cycles + n := rfl
@[simp] theorem State.charge_run (n : Nat) : (s.charge n).run = s.run := rfl
@[simp] theorem State.charge_mem (n : Nat) : (s.charge n).mem = s.mem := rfl
@[simp] theorem State.charge_itable (n : Nat) : (s.charge n).itable = s.itable := rfl
@[simp] theorem State.charge_diag (n : Nat) : (s.charge n).diag = s.diag := rfl

/-! ### setA -/

@[simp] theorem State.setA_a (v : Byte) : (s.setA v).a = v := rfl
@[simp] theorem State.setA_x (v : Byte) : (s.setA v).x = s.x := rfl
@[simp] theorem State.setA_y (v : Byte) : (s.setA v).y = s.y := rfl
@[simp] theorem State.setA_pc (v : Byte) : (s.setA v).pc = s.pc := rfl
@[simp] theorem State.setA_sp (v : Byte) : (s.setA v).sp = s.sp := rfl
@[simp] theorem State.setA_flags (v : Byte) : (s.setA v).flags = s.flags := rfl
@[simp] theorem State.setA_cycles (v : Byte) : (s.setA v).cycles = s.cycles := rfl
@[simp] theorem State.setA_run (v : Byte) : (s.setA v).run = s.run := rfl
@[simp] theorem State.setA_mem (v : Byte) : (s.setA v).mem = s.mem := rfl
@[simp] theorem State.setA_itable (v : Byte) : (s.setA v).itable = s.itable := rfl
@[simp] theorem State.setA_diag (v : Byte) : (s.setA v).diag = s.diag := rfl

/-! ### setFlags -/

@[simp] theorem State.setFlags_a (f : Flags) : (s.setFlags f).a = s.a := rfl
@[simp] theorem State.setFlags_x (f : Flags) : (s.setFlags f).x = s.x := rfl
@[simp] theorem State.setFlags_y (f : Flags) : (s.setFlags f).y = s.y := rfl
@[simp] theorem State.setFlags_pc (f : Flags) : (s.setFlags f).pc = s.pc := rfl
@[simp] theorem State.setFlags_sp (f : Flags) : (s.setFlags f).sp = s.sp := rfl
@[simp] theorem State.setFlags_flags (f : Flags) : (s.setFlags f).flags = f := rfl
@[simp] theorem State.setFlags_cycles (f : Flags) : (s.setFlags f).cycles = s.cycles := rfl
@[simp] theorem State.setFlags_run (f : Flags) : (s.setFlags f).run = s.run := rfl
@[simp] theorem State.setFlags_mem (f : Flags) : (s.setFlags f).mem = s.mem := rfl
@[simp] theorem State.setFlags_itable (f : Flags) : (s.setFlags f).itable = s.itable := rfl
@[simp] theorem State.setFlags_diag (f : Flags) : (s.setFlags f).diag = s.diag := rfl

/-! ### setRun -/

@[simp] theorem State.setRun_a (r : RunState) : (s.setRun r).a = s.a := rfl
@[simp] theorem State.setRun_x (r : RunState) : (s.setRun r).x = s.x := rfl
@[simp] theorem State.setRun_y (r : RunState) : (s.setRun r).y = s.y := rfl
@[simp] theorem State.setRun_pc (r : RunState) : (s.setRun r).pc = s.pc := rfl
@[simp] theorem State.setRun_sp (r : RunState) : (s.setRun r).sp = s.sp := rfl
@[simp] theorem State.setRun_flags (r : RunState) : (s.setRun r).flags = s.flags := rfl
@[simp] theorem State.setRun_cycles (r : RunState) : (s.setRun r).cycles = s.cycles := rfl
@[simp] theorem State.setRun_run (r : RunState) : (s.setRun r).run = r := rfl
@[simp] theorem State.setRun_mem (r : RunState) : (s.setRun r).mem = s.mem := rfl
@[simp] theorem State.setRun_itable (r : RunState) : (s.setRun r).itable = s.itable := rfl
@[simp] theorem State.setRun_diag (r : RunState) : (s.setRun r).diag = s.diag := rfl

/-! ### setMem -/

@[simp] theorem State.setMem_a (m : Memory) : (s.setMem m).a = s.a := rfl
@[simp] theorem State.setMem_x (m : Memory) : (s.setMem m).x = s.x := rfl
@[simp] theorem State.setMem_y (m : Memory) : (s.setMem m).y = s.y := rfl
@[simp] theorem State.setMem_pc (m : Memory) : (s.setMem m).pc = s.pc := rfl
@[simp] theorem State.setMem_sp (m : Memory) : (s.setMem m).sp = s.sp := rfl
@[simp] theorem State.setMem_flags (m : Memory) : (s.setMem m).flags = s.flags := rfl
@[simp] theorem State.setMem_cycles (m : Memory) : (s.setMem m).cycles = s.cycles := rfl
@[simp] theorem State.setMem_run (m : Memory) : (s.setMem m).run = s.run := rfl
@[simp] theorem State.setMem_mem (m : Memory) : (s.setMem m).mem = m := rfl
@[simp] theorem State.setMem_itable (m : Memory) : (s.setMem m).itable = s.itable := rfl
@[simp] theorem State.setMem_diag (m : Memory) : (s.setMem m).diag = s.diag := rfl

/-! ### addReport -/

@[simp] theorem State.addReport_a (r : Report) : (s.addReport r).a = s.a := rfl
@[simp] theorem State.addReport_x (r : Report) : (s.addReport r).x = s.x := rfl
@[simp] theorem State.addReport_y (r : Report) : (s.addReport r).y = s.y := rfl
@[simp] theorem State.addReport_pc (r : Report) : (s.addReport r).pc = s.pc := rfl
@[simp] theorem State.addReport_sp (r : Report) : (s.addReport r).sp = s.sp := rfl
@[simp] theorem State.addReport_flags (r : Report) : (s.addReport r).flags = s.flags := rfl
@[simp] theorem State.addReport_cycles (r : Report) : (s.addReport r).cycles = s.cycles := rfl
@[simp] theorem State.addReport_run (r : Report) : (s.addReport r).run = s.run := rfl
@[simp] theorem State.addReport_mem (r : Report) : (s.addReport r).mem = s.mem := rfl
@[simp] theorem State.addReport_itable (r : Report) : (s.addReport r).itable = s.itable := rfl
@[simp] theorem State.addReport_diag (r : Report) : (s.addReport r).diag = s.diag ++ [r] := rfl

/-! ### setZN -/

variable (v : Byte) (f : Flags)

@[simp] theorem setZN_carry : (setZN v f).carry = f.carry := rfl
@[simp] theorem setZN_zero : (setZN v f).zero = isZero v := rfl
@[simp] theorem setZN_interruptDisable : (setZN v f).interruptDisable = f.interruptDisable := rfl
@[simp] theorem setZN_decimal : (setZN v f).decimal = f.decimal := rfl
@[simp] theorem setZN_brk : (setZN v f).brk = f.brk := rfl
@[simp] theorem setZN_overflow : (setZN v f).overflow = f.overflow := rfl
@[simp] theorem setZN_negative : (setZN v f).negative = isNegative v := rfl

end Sys2Proof.Machine
end

