-- ==== Sys2Proof/Laws/Ops.lean ====
section
/-! SUPPORT. What each access primitive can do, once: a lemma for the access that succeeds and one for the access
that raises. -/

namespace Sys2Proof.Machine

@[simp] theorem Access.bind_done {α β : Type} (v : α) (s : State) (f : α → State → Access β) :
    (Access.done v s).bind f = f v s := rfl

@[simp] theorem Access.bind_abort {α β : Type} (e : Fault) (f : α → State → Access β) :
    (Access.abort e : Access α).bind f = .abort e := rfl

/-- A sequence of accesses that succeeds: the first did, and the rest did from there. -/
theorem Access.bind_eq_done {α β : Type} {acc : Access α} {f : α → State → Access β} {w : β} {t : State}
    (h : acc.bind f = .done w t) : ∃ v s, acc = .done v s ∧ f v s = .done w t := by
  cases acc with
  | done v s => exact ⟨v, s, rfl, h⟩
  | abort e => cases h

/-- A sequence of accesses that raises: the first did, or the rest did after it. -/
theorem Access.bind_eq_abort {α β : Type} {acc : Access α} {f : α → State → Access β} {e : Fault}
    (h : acc.bind f = .abort e) : acc = .abort e ∨ ∃ v s, acc = .done v s ∧ f v s = .abort e := by
  cases acc with
  | done v s => exact .inr ⟨v, s, rfl, h⟩
  | abort e' => cases h; exact .inl rfl

variable {s t : State} {addr : Addr} {b v : Byte} {e : Fault}

/-! ### Reads that succeed -/

theorem memRead_done (h : s.mem.get addr = some b) : memRead addr s = .done b s := by
  simp [memRead, h]

theorem fetchByte_done (h : s.mem.get s.pc = some b) : fetchByte s = .done b (s.advancePc.charge 1) := by
  simp [fetchByte, memRead_done h, Config.fetchCost]

theorem readByte_done (h : s.mem.get addr = some b) : readByte addr s = .done b (s.charge 1) := by
  simp [readByte, memRead_done h, Config.dataReadCost]

/-! ### Reads that raise -/

theorem memRead_abort (h : s.mem.get addr = none) :
    memRead addr s = .abort (.addressOutOfBounds addr s.mem.size (s.setRun .idle)) := by
  simp [memRead, h, raiseOutOfBounds]

theorem fetchByte_abort (h : s.mem.get s.pc = none) :
    fetchByte s = .abort (.addressOutOfBounds s.pc s.mem.size (s.setRun .idle)) := by
  simp [fetchByte, memRead_abort h]

theorem readByte_abort (h : s.mem.get addr = none) :
    readByte addr s = .abort (.addressOutOfBounds addr s.mem.size (s.setRun .idle)) := by
  simp [readByte, memRead_abort h]

/-! ### Inversion: everything an access can do -/

theorem fetchByte_eq_done (h : fetchByte s = .done b t) : s.mem.get s.pc = some b ∧ t = s.advancePc.charge 1 := by
  cases hg : s.mem.get s.pc with
  | some c => rw [fetchByte_done hg] at h; cases h; exact ⟨rfl, rfl⟩
  | none => rw [fetchByte_abort hg] at h; cases h

theorem fetchByte_eq_abort (h : fetchByte s = .abort e) :
    s.mem.get s.pc = none ∧ e = .addressOutOfBounds s.pc s.mem.size (s.setRun .idle) := by
  cases hg : s.mem.get s.pc with
  | some c => rw [fetchByte_done hg] at h; cases h
  | none => rw [fetchByte_abort hg] at h; cases h; exact ⟨rfl, rfl⟩

theorem readByte_eq_done (h : readByte addr s = .done b t) : s.mem.get addr = some b ∧ t = s.charge 1 := by
  cases hg : s.mem.get addr with
  | some c => rw [readByte_done hg] at h; cases h; exact ⟨rfl, rfl⟩
  | none => rw [readByte_abort hg] at h; cases h

theorem readByte_eq_abort (h : readByte addr s = .abort e) :
    s.mem.get addr = none ∧ e = .addressOutOfBounds addr s.mem.size (s.setRun .idle) := by
  cases hg : s.mem.get addr with
  | some c => rw [readByte_done hg] at h; cases h
  | none => rw [readByte_abort hg] at h; cases h; exact ⟨rfl, rfl⟩

/-! ### Writes -/

/-- `MemWrite` in bounds replaces the memory and nothing else; out of bounds it raises (R52). -/
theorem memWrite_cases (addr : Addr) (v : Byte) (s : State) :
    (∃ m, s.mem.set addr v = some m ∧ memWrite addr v s = .done () (s.setMem m)) ∨
      (s.mem.set addr v = none ∧
        memWrite addr v s = .abort (.addressOutOfBounds addr s.mem.size (s.setRun .idle))) := by
  unfold memWrite
  cases h : s.mem.set addr v with
  | some m => exact .inl ⟨m, rfl, rfl⟩
  | none => exact .inr ⟨rfl, rfl⟩

/-- `MemWrite` keeps the canonical form of memory. -/
theorem memWrite_wf (hm : s.mem.wf) {u : Unit} (h : memWrite addr v s = .done u t) : t.mem.wf := by
  rcases memWrite_cases addr v s with ⟨m, hset, hw⟩ | ⟨-, hw⟩
  · rw [hw] at h
    cases h
    exact Memory.set_wf hm hset
  · rw [hw] at h
    cases h

/-! ### Several stream bytes -/

theorem fetchBytes_zero (s : State) : fetchBytes 0 s = .done [] s := rfl

theorem fetchBytes_one (s : State) : fetchBytes 1 s = (fetchByte s).bind fun b t => .done [b] t := rfl

theorem fetchBytes_two (s : State) :
    fetchBytes 2 s = (fetchByte s).bind fun b t => (fetchByte t).bind fun c u => .done [b, c] u := by
  simp only [fetchBytes]
  cases fetchByte s with
  | abort e => rfl
  | done b t =>
    simp only [Access.bind_done]
    cases fetchByte t <;> rfl

end Sys2Proof.Machine
end

