-- ==== Sys2Proof/Laws/Adapter.lean ====
section
/-! SUPPORT. What the applier and the adapter can do, once. -/

namespace Sys2Proof.Machine

variable (v : Byte) (s : State)

/-! ### The transformation -/

/-- The identity (R136). -/
@[simp] theorem transformByte_identity : transformByte .identity v = v := rfl

/-- The entry at the operand's number. -/
@[simp] theorem transformByte_table (values : Vector Byte 256) :
    transformByte (.table values) v = values[v.toNat]'v.isLt := rfl

/-- As table data a function is the function: a table entry may hold any transformation R135 allows (R174). -/
@[simp] theorem transformByte_ofFunction (f : Byte → Byte) (v : Byte) : transformByte (Transform.ofFunction f) v = f v := by
  simp [transformByte, Transform.ofFunction]

/-! ### LoadA, field by field (R121, R123) -/

@[simp] theorem applyLoadA_a : (applyLoadA v s).a = v := rfl
@[simp] theorem applyLoadA_x : (applyLoadA v s).x = s.x := rfl
@[simp] theorem applyLoadA_y : (applyLoadA v s).y = s.y := rfl
@[simp] theorem applyLoadA_pc : (applyLoadA v s).pc = s.pc := rfl
@[simp] theorem applyLoadA_sp : (applyLoadA v s).sp = s.sp := rfl
@[simp] theorem applyLoadA_flags : (applyLoadA v s).flags = setZN v s.flags := rfl
@[simp] theorem applyLoadA_cycles : (applyLoadA v s).cycles = s.cycles := rfl
@[simp] theorem applyLoadA_run : (applyLoadA v s).run = s.run := rfl
@[simp] theorem applyLoadA_mem : (applyLoadA v s).mem = s.mem := rfl
@[simp] theorem applyLoadA_itable : (applyLoadA v s).itable = s.itable := rfl
@[simp] theorem applyLoadA_diag : (applyLoadA v s).diag = s.diag := rfl

/-- Whatever a table entry names, its second half is: load the transformed operand (R121, R135). -/
theorem adapt_done (f : Transform) (applier : Applier) (v : Byte) (s : State) :
    adapt f applier (.done v s) = .next (applyLoadA (transformByte f v) s) := by
  cases applier; rfl

theorem adapt_abort (f : Transform) (applier : Applier) (e : Fault) : adapt f applier (.abort e) = .fault e := rfl

/-- The adapter completes exactly when its operand does, and then loads the transformed operand. -/
theorem adapt_eq_next {f : Transform} {applier : Applier} {operand : Access Byte} {t : State}
    (h : adapt f applier operand = .next t) : ∃ v s, operand = .done v s ∧ t = applyLoadA (transformByte f v) s := by
  cases operand with
  | done v s => rw [adapt_done] at h; cases h; exact ⟨v, s, rfl, rfl⟩
  | abort e => cases h

/-- The adapter faults exactly when its operand raises, with the same reason. -/
theorem adapt_eq_fault {f : Transform} {applier : Applier} {operand : Access Byte} {e : Fault}
    (h : adapt f applier operand = .fault e) : operand = .abort e := by
  cases operand with
  | done v s => rw [adapt_done] at h; cases h
  | abort e' => cases h; rfl

/-- The adapter refuses nothing. -/
theorem adapt_ne_refused {f : Transform} {applier : Applier} {operand : Access Byte} {r : Refusal} :
    adapt f applier operand ≠ .refused r := by
  intro h
  cases operand with
  | done v s => rw [adapt_done] at h; cases h
  | abort e => cases h

end Sys2Proof.Machine
end

