-- ==== Sys2Proof/Laws/Decode.lean ====
section
/-! SUPPORT. The instruction table's laws, and the decoder one table entry at a time. -/

namespace Sys2Proof

/-- Dropping an opcode's entries leaves the other opcodes' lookups alone. -/
theorem ITable.lookup_filter_of_ne (t : ITable) {op op' : Byte} (h : op' ≠ op) :
    ITable.lookup (t.filter fun e => e.1 != op) op' = t.lookup op' := by
  induction t with
  | nil => rfl
  | cons e t ih =>
    obtain ⟨k, ins⟩ := e
    by_cases hk : k = op
    · have hk' : k ≠ op' := fun e => h (e ▸ hk)
      simp [hk, ITable.lookup, ih, Ne.symm h]
    · simp [hk, ITable.lookup, ih]

/-- One registration: the registered opcode answers its Instruction, the others as before (R155). -/
theorem ITable.lookup_register (t : ITable) (op op' : Byte) (ins : Instruction) :
    (t.register op ins).lookup op' = if op = op' then some ins else t.lookup op' := by
  unfold ITable.register
  rw [ITable.lookup]
  split
  · rfl
  · next h => exact ITable.lookup_filter_of_ne t (Ne.symm h)

/-- A registration keeps opcodes unique keys (R93). -/
theorem ITable.register_wf {t : ITable} (h : t.wf) (op : Byte) (ins : Instruction) : (t.register op ins).wf := by
  refine List.pairwise_cons.mpr ⟨fun e he => ?_, h.filter _⟩
  have := (List.mem_filter.mp he).2
  exact fun heq => by simp_all

/-- The fixed build makes opcodes unique keys, whatever the opcode parameters (R93, R156). -/
theorem buildTable_wf (o : Opcodes) : (buildTable o).wf :=
  ITable.register_wf (ITable.register_wf (ITable.register_wf (ITable.register_wf List.Pairwise.nil _ _) _ _) _ _) _ _

/-- The value of a joined address: `hi8 * 256 + lo8` (R6). -/
theorem joinBytes_toNat (hi lo : Byte) : (joinBytes hi lo).toNat = hi.toNat * 256 + lo.toNat := by
  simp only [joinBytes, BitVec.toNat_append]
  rw [← Nat.shiftLeft_add_eq_or_of_lt lo.isLt]
  simp only [Nat.shiftLeft_eq]

/-- The value of an address's low byte. -/
theorem lowByte_toNat (a : Addr) : (lowByte a).toNat = a.toNat % 256 := by
  simp [lowByte, BitVec.extractLsb'_toNat]

/-- The value of an address's high byte. -/
theorem highByte_toNat (a : Addr) : (highByte a).toNat = a.toNat / 256 := by
  have h : a.toNat < 65536 := a.isLt
  simp only [highByte, BitVec.extractLsb'_toNat, Nat.shiftRight_eq_div_pow]
  omega

/-- The low and high bytes of an address, joined, are the address (R85). -/
theorem joinBytes_high_low (a : Addr) : joinBytes (highByte a) (lowByte a) = a := by
  apply BitVec.eq_of_toNat_eq
  rw [joinBytes_toNat, lowByte_toNat, highByte_toNat]
  omega

/-- The low byte of a joined address. -/
theorem lowByte_joinBytes (hi lo : Byte) : lowByte (joinBytes hi lo) = lo := by
  apply BitVec.eq_of_toNat_eq
  have h : lo.toNat < 256 := lo.isLt
  rw [lowByte_toNat, joinBytes_toNat]
  omega

/-- The high byte of a joined address. -/
theorem highByte_joinBytes (hi lo : Byte) : highByte (joinBytes hi lo) = hi := by
  apply BitVec.eq_of_toNat_eq
  have h : lo.toNat < 256 := lo.isLt
  rw [highByte_toNat, joinBytes_toNat]
  omega

end Sys2Proof
end

