-- ==== Sys2Proof/Laws/Fetch.lean ====
section
/-! SUPPORT. What the fetch of one instruction can do, once per addressing mode of the table entry. -/

namespace Sys2Proof.Machine

variable {s : State} {op : Byte} {ins : Instruction}

/-- The state after the opcode byte (R159). -/
abbrev State.afterOpcode (s : State) : State := s.advancePc.charge 1

theorem fetchInstr_abort (h : s.mem.get s.pc = none) :
    fetchInstr s = .abort (.addressOutOfBounds s.pc s.mem.size (s.setRun .idle)) := by
  simp [fetchInstr, fetchByte_abort h]

theorem fetchInstr_miss (h : s.mem.get s.pc = some op) (hl : s.itable.lookup op = none) :
    fetchInstr s = .miss op s.afterOpcode := by
  simp [fetchInstr, fetchByte_done h, hl]

theorem fetchInstr_immediate (h : s.mem.get s.pc = some op)
    (hl : s.itable.lookup op = some ⟨.immediate, .identity, .loadA⟩) :
    fetchInstr s = match fetchByte s.afterOpcode with
      | .done v t => .instr (.ldaImm v) t
      | .abort e => .abort e := by
  simp only [fetchInstr, fetchByte_done h, hl, Resolver.streamBytes, fetchBytes_one]
  cases fetchByte s.afterOpcode <;> simp [decodeWith, hl, parseOperands, parseMode]

theorem fetchInstr_zeroPage (h : s.mem.get s.pc = some op)
    (hl : s.itable.lookup op = some ⟨.zeroPage, .identity, .loadA⟩) :
    fetchInstr s = match fetchByte s.afterOpcode with
      | .done v t => .instr (.ldaZp v) t
      | .abort e => .abort e := by
  simp only [fetchInstr, fetchByte_done h, hl, Resolver.streamBytes, fetchBytes_one]
  cases fetchByte s.afterOpcode <;> simp [decodeWith, hl, parseOperands, parseMode]

theorem fetchInstr_zeroPageX (h : s.mem.get s.pc = some op)
    (hl : s.itable.lookup op = some ⟨.zeroPageX, .identity, .loadA⟩) :
    fetchInstr s = match fetchByte s.afterOpcode with
      | .done v t => .instr (.ldaZpx v) t
      | .abort e => .abort e := by
  simp only [fetchInstr, fetchByte_done h, hl, Resolver.streamBytes, fetchBytes_one]
  cases fetchByte s.afterOpcode <;> simp [decodeWith, hl, parseOperands, parseMode]

theorem fetchInstr_absolute (h : s.mem.get s.pc = some op)
    (hl : s.itable.lookup op = some ⟨.absolute, .identity, .loadA⟩) :
    fetchInstr s = match (fetchByte s.afterOpcode).bind fun lo t => (fetchByte t).bind fun hi u => .done (lo, hi) u with
      | .done w u => .instr (.ldaAbs (joinBytes w.2 w.1)) u
      | .abort e => .abort e := by
  simp only [fetchInstr, fetchByte_done h, hl, Resolver.streamBytes, fetchBytes_two]
  cases fetchByte s.afterOpcode with
  | abort e => rfl
  | done lo t =>
    simp only [Access.bind_done]
    cases fetchByte t <;> simp [decodeWith, hl, parseOperands, parseMode]

/-- An entry that is no row of the opcode table: its stream bytes are fetched to see that they are there, and the adapter runs it
from the state after the opcode byte (R174). -/
theorem fetchInstr_unit (h : s.mem.get s.pc = some op) (hl : s.itable.lookup op = some ins)
    (hn : ∀ bytes, parseOperands op ins bytes = .error (.noTableRow op)) :
    fetchInstr s = match fetchBytes ins.resolver.streamBytes s.afterOpcode with
      | .done _ _ => .unit ins s.afterOpcode
      | .abort e => .abort e := by
  simp only [fetchInstr, fetchByte_done h, hl]
  cases fetchBytes ins.resolver.streamBytes s.afterOpcode <;> simp [decodeWith, hl, hn]

/-- Which entries are no row: the modes Zero Page,Y and Accumulator, and any transformation that is not the identity. -/
theorem parseOperands_noTableRow {ins : Instruction}
    (h : ins.resolver = .zeroPageY ∨ ins.resolver = .accumulator ∨ ins.transform ≠ .identity) (op : Byte) (bytes : List Byte) :
    parseOperands op ins bytes = .error (.noTableRow op) := by
  obtain ⟨r, f, applier⟩ := ins
  cases applier
  cases f with
  | table values => rfl
  | identity =>
    rcases h with rfl | rfl | h
    · rfl
    · rfl
    · exact absurd rfl h

end Sys2Proof.Machine
end

