-- ==== Sys2Proof/Laws/Operands.lean ====
section
/-! SUPPORT. The effective addresses as numbers, the Negative computation as a comparison, and what a resolver that raises leaves. -/

namespace Sys2Proof.Machine

/-- The value of a zero-page address (R84). -/
theorem zeroPageAddr_toNat (b : Byte) : (zeroPageAddr b).toNat = b.toNat := by
  have h : b.toNat < 256 := b.isLt
  unfold zeroPageAddr
  rw [BitVec.toNat_setWidth]
  omega

/-- The value of an indexed zero-page address: the sum modulo 256 (R107). -/
theorem indexedAddr_toNat (base index : Byte) : (indexedAddr base index).toNat = (base.toNat + index.toNat) % 256 := by
  unfold indexedAddr
  rw [zeroPageAddr_toNat, BitVec.toNat_add]

theorem zeroPageAddr_eq_ofNat (b : Byte) : zeroPageAddr b = BitVec.ofNat 16 b.toNat := by
  apply BitVec.eq_of_toNat_eq
  have h : b.toNat < 256 := b.isLt
  rw [zeroPageAddr_toNat, BitVec.toNat_ofNat]
  omega

theorem indexedAddr_eq_ofNat (base index : Byte) :
    indexedAddr base index = BitVec.ofNat 16 ((base.toNat + index.toNat) % 256) := by
  apply BitVec.eq_of_toNat_eq
  rw [indexedAddr_toNat, BitVec.toNat_ofNat]
  omega

theorem joinBytes_eq_ofNat (hi lo : Byte) : joinBytes hi lo = BitVec.ofNat 16 (hi.toNat * 256 + lo.toNat) := by
  apply BitVec.eq_of_toNat_eq
  have h : hi.toNat < 256 := hi.isLt
  have h' : lo.toNat < 256 := lo.isLt
  rw [joinBytes_toNat, BitVec.toNat_ofNat]
  omega

/-- Bit 7 is set exactly from 128 up (R122). -/
theorem isNegative_eq (v : Byte) : isNegative v = decide (128 ≤ v.toNat) := by
  revert v
  decide

/-- All bits are 0 exactly for 0 (R122). -/
theorem isZero_eq (v : Byte) : isZero v = decide (v.toNat = 0) := by
  revert v
  decide

/-- Where a resolver's stream bytes cannot be fetched the resolver raises just so: it consumes them before anything else (R100). -/
theorem resolve_of_fetchBytes_abort {r : Resolver} {s : State} {e : Fault} (h : fetchBytes r.streamBytes s = .abort e) :
    resolve r s = .abort e := by
  have one : fetchBytes 1 s = .abort e → fetchByte s = .abort e := fun h => by
    rw [fetchBytes_one] at h
    rcases Access.bind_eq_abort h with he | ⟨_, _, _, he⟩
    · exact he
    · cases he
  cases r with
  | accumulator => cases h
  | immediate => simp only [resolve, resolveImmediate, one h, Access.bind_abort]
  | zeroPage => simp only [resolve, resolveZeroPage, one h, Access.bind_abort]
  | zeroPageX => simp only [resolve, resolveZeroPageX, one h, Access.bind_abort]
  | zeroPageY => simp only [resolve, resolveZeroPageY, one h, Access.bind_abort]
  | absolute =>
    rw [Resolver.streamBytes, fetchBytes_two] at h
    rcases Access.bind_eq_abort h with he | ⟨lo, t, hlo, h⟩
    · simp only [resolve, resolveAbsolute, he, Access.bind_abort]
    · rcases Access.bind_eq_abort h with he | ⟨_, _, _, he⟩
      · simp only [resolve, resolveAbsolute, hlo, Access.bind_done, he, Access.bind_abort]
      · cases he

/-- What a resolver that raises leaves: PC past the `n` stream bytes it fetched, the next one being the failing access unless all
were fetched, cycles at most two on, the run state Idle, and everything else as before (R109, R182). -/
theorem resolve_eq_abort {r : Resolver} {s : State} {e : Fault} (h : resolve r s = .abort e) :
    ∃ (addr : Addr) (n c : Nat), n ≤ r.streamBytes ∧ c ≤ 2 ∧ s.mem.size ≤ addr.toNat ∧
      (∀ j, j < n → s.mem.get (s.pc + BitVec.ofNat 16 j) ≠ none) ∧
      (n < r.streamBytes → s.mem.get (s.pc + BitVec.ofNat 16 n) = none) ∧
      e = .addressOutOfBounds addr s.mem.size
        { s with pc := s.pc + BitVec.ofNat 16 n, cycles := s.cycles + c, run := .idle } := by
  have first : fetchByte s = .abort e → ∃ (addr : Addr) (n c : Nat), n ≤ r.streamBytes ∧ c ≤ 2 ∧ s.mem.size ≤ addr.toNat ∧
      (∀ j, j < n → s.mem.get (s.pc + BitVec.ofNat 16 j) ≠ none) ∧
      (n < r.streamBytes → s.mem.get (s.pc + BitVec.ofNat 16 n) = none) ∧
      e = .addressOutOfBounds addr s.mem.size
        { s with pc := s.pc + BitVec.ofNat 16 n, cycles := s.cycles + c, run := .idle } := fun he => by
    obtain ⟨hg, rfl⟩ := fetchByte_eq_abort he
    exact ⟨s.pc, 0, 0, by omega, by omega, Memory.get_eq_none.mp hg, by omega, fun _ => by simpa using hg, by simp [State.setRun]⟩
  have one : ∀ {b : Byte}, s.mem.get s.pc = some b → ∀ j, j < 1 → s.mem.get (s.pc + BitVec.ofNat 16 j) ≠ none :=
    fun hg j hj => by
      obtain rfl : j = 0 := by omega
      simp [hg]
  cases r with
  | accumulator => cases h
  | immediate =>
    rcases Access.bind_eq_abort h with he | ⟨_, _, _, he⟩
    · exact first he
    · cases he
  | zeroPage =>
    rcases Access.bind_eq_abort h with he | ⟨_, _, hb, he⟩
    · exact first he
    · obtain ⟨gb, rfl⟩ := fetchByte_eq_done hb
      obtain ⟨hg, rfl⟩ := readByte_eq_abort he
      exact ⟨_, 1, 1, Nat.le_refl _, by omega, Memory.get_eq_none.mp hg, one gb, by simp [Resolver.streamBytes], rfl⟩
  | zeroPageX =>
    rcases Access.bind_eq_abort h with he | ⟨_, _, hb, he⟩
    · exact first he
    · obtain ⟨gb, rfl⟩ := fetchByte_eq_done hb
      obtain ⟨hg, rfl⟩ := readByte_eq_abort he
      exact ⟨_, 1, 2, Nat.le_refl _, by omega, Memory.get_eq_none.mp hg, one gb, by simp [Resolver.streamBytes], rfl⟩
  | zeroPageY =>
    rcases Access.bind_eq_abort h with he | ⟨_, _, hb, he⟩
    · exact first he
    · obtain ⟨gb, rfl⟩ := fetchByte_eq_done hb
      obtain ⟨hg, rfl⟩ := readByte_eq_abort he
      exact ⟨_, 1, 2, Nat.le_refl _, by omega, Memory.get_eq_none.mp hg, one gb, by simp [Resolver.streamBytes], rfl⟩
  | absolute =>
    rcases Access.bind_eq_abort h with he | ⟨_, _, hb, h⟩
    · exact first he
    · obtain ⟨gb, rfl⟩ := fetchByte_eq_done hb
      rcases Access.bind_eq_abort h with he | ⟨_, _, hc, he⟩
      · obtain ⟨hg, rfl⟩ := fetchByte_eq_abort he
        exact ⟨_, 1, 1, by decide, by omega, Memory.get_eq_none.mp hg, one gb, fun _ => hg, rfl⟩
      · obtain ⟨gc, rfl⟩ := fetchByte_eq_done hc
        obtain ⟨hg, rfl⟩ := readByte_eq_abort he
        refine ⟨_, 2, 2, Nat.le_refl _, by omega, Memory.get_eq_none.mp hg, fun j hj => ?_, by simp [Resolver.streamBytes], ?_⟩
        · obtain rfl | rfl : j = 0 ∨ j = 1 := by omega
          · exact one gb 0 (by omega)
          · exact fun hn => nomatch gc.symm.trans hn
        · simp [State.setRun, State.charge, State.advancePc, BitVec.add_assoc]

end Sys2Proof.Machine
end

