-- ==== Sys2Proof/Laws/PerInstr.lean ====
section
/-! SUPPORT. A property of every instruction as syntax, one lemma per constructor: its encoding is its opcode byte followed by the
operand bytes of its addressing mode (R80, R86). -/

namespace Sys2Proof.Laws.EncodingShape

/-- The encoding begins with an opcode of the default table and has the length R86 gives that entry. -/
def Statement (i : Instr) : Prop :=
  (encode i).length = i.length ∧ ∃ op ins, (encode i).head? = some op ∧ defaultTable.lookup op = some ins ∧
    i.length = 1 + ins.resolver.streamBytes

theorem ldaImm (imm8 : Byte) : Statement (.ldaImm imm8) :=
  ⟨rfl, 0xA9, ⟨.immediate, .identity, .loadA⟩, rfl, by decide, rfl⟩

theorem ldaZp (zp8 : Byte) : Statement (.ldaZp zp8) :=
  ⟨rfl, 0xA5, ⟨.zeroPage, .identity, .loadA⟩, rfl, by decide, rfl⟩

theorem ldaZpx (base8 : Byte) : Statement (.ldaZpx base8) :=
  ⟨rfl, 0xB5, ⟨.zeroPageX, .identity, .loadA⟩, rfl, by decide, rfl⟩

theorem ldaAbs (abs16 : Addr) : Statement (.ldaAbs abs16) :=
  ⟨rfl, 0xAD, ⟨.absolute, .identity, .loadA⟩, rfl, by decide, rfl⟩

end Sys2Proof.Laws.EncodingShape
end

