-- ==== Sys2Proof/Laws/Step.lean ====
section
/-! SUPPORT. The step by what its fetch ends in, and the loop one iteration at a time. -/

namespace Sys2Proof.Machine

variable {s t : State}

theorem step_of_instr {i : Instr} (h : fetchInstr s = .instr i t) : step s = exec i t := by
  simp only [step, h]

theorem step_of_unit {ins : Instruction} (h : fetchInstr s = .unit ins t) : step s = execInstr ins t := by
  simp only [step, h]

theorem step_of_miss {op : Byte} (h : fetchInstr s = .miss op t) : step s = .next (reportUndefined op s.pc t) := by
  simp only [step, h]

theorem step_of_abort {e : Fault} (h : fetchInstr s = .abort e) : step s = .fault e := by
  simp only [step, h]

/-- The loop stops, with any fuel, once the budget is consumed (R162). -/
theorem runLoop_of_consumed {basis : BudgetBasis} {start budget : Nat} (fuel : Nat)
    (h : ¬ consumed basis start s < budget) : runLoop basis start budget fuel s = (.ok, s) := by
  cases fuel with
  | zero => rfl
  | succ n => rw [runLoop, if_neg h]

/-- The loop goes on after a step that completes (R162). -/
theorem runLoop_of_next {basis : BudgetBasis} {start budget : Nat} (fuel : Nat)
    (hb : consumed basis start s < budget) (h : step s = .next t) :
    runLoop basis start budget (fuel + 1) s = runLoop basis start budget fuel t := by
  rw [runLoop, if_pos hb, h]

/-- The loop ends with the error of a step that raises, in the state the abort leaves (R168). -/
theorem runLoop_of_fault {basis : BudgetBasis} {start budget : Nat} (fuel : Nat)
    (hb : consumed basis start s < budget) {addr : Addr} {size : Nat}
    (h : step s = .fault (.addressOutOfBounds addr size t)) :
    runLoop basis start budget (fuel + 1) s = (.error addr size, t) := by
  rw [runLoop, if_pos hb, h]

/-- What holds of a state, is kept by every completed step and holds of what an abort leaves, holds after the loop. -/
theorem runLoop_induction {P : State → Prop} (hnext : ∀ s t, P s → step s = .next t → P t)
    (hfault : ∀ s addr size left, P s → step s = .fault (.addressOutOfBounds addr size left) → P left)
    (basis : BudgetBasis) (start budget fuel : Nat) (s : State) (h : P s) : P (runLoop basis start budget fuel s).2 := by
  induction fuel generalizing s with
  | zero => exact h
  | succ n ih =>
    rw [runLoop]
    split
    · split
      · next t ht => exact ih t (hnext s t h ht)
      · next addr size left hl => exact hfault s addr size left h hl
      · exact h
    · exact h

end Sys2Proof.Machine
end

