-- ==== Sys2Proof/Tests/Slice0.lean ====
section
/-! SUPPORT. Small tests with results from the spec's own vectors (95_test_vectors.md) and encodings, the well-formedness smoke
tests, and for each statement with hypotheses a state and operands that meet them. -/

namespace Sys2Proof.Tests

open Sys2Proof.Machine

/-- The power-up state with a given capacity, PC and memory (D19: a launch state). -/
def launch (size : Nat) (pc : Addr) (cells : List Host.Cell) : State :=
  { State.reset with pc := pc, mem := { size := size, cells := cells } }

/-- The next state, if there is one. -/
def nextOf (o : Host.Outcome State Fault Refusal) : Option State :=
  match o with
  | .next s => some s
  | .fault _ => none
  | .refused _ => none

/-- The fault, if there is one. -/
def faultOf (o : Host.Outcome State Fault Refusal) : Option Fault :=
  match o with
  | .next _ => none
  | .fault f => some f
  | .refused _ => none

/-! ### Decoding: words written out from R81 and R87 -/

/-- R87: 1010 1001, then the operand byte. -/
theorem test_decode_lda_imm : decode [0b10101001, 0b10000100] = .ok (.ldaImm 0x84, []) := by rfl

/-- R87: 1010 0101, then the address byte. -/
theorem test_decode_lda_zp : decode [0b10100101, 0b01000010] = .ok (.ldaZp 0x42, []) := by rfl

/-- R87: 1011 0101, then the base byte. -/
theorem test_decode_lda_zpx : decode [0b10110101, 0b10000000] = .ok (.ldaZpx 0x80, []) := by rfl

/-- R87, R85: 1010 1101, then the low byte, then the high byte. -/
theorem test_decode_lda_abs : decode [0b10101101, 0b00110100, 0b00010010, 0xFF] = .ok (.ldaAbs 0x1234, [0xFF]) := by rfl

/-- R88: the bytes of V6 have no entry. -/
theorem test_decode_undefined :
    ∀ op ∈ ([0x00, 0x02, 0xA1, 0xB6, 0xBD, 0xEA, 0xFF] : List Byte), defaultTable.lookup op = none := by decide

/-- R80: an operand byte is missing. -/
theorem test_decode_truncated : decode [0xAD, 0x34] = .error (.truncated 0xAD) := by rfl

/-- The table's word for LDA absolute, bytes numbered from the least significant (AD, 34, 12). -/
theorem test_table_word : decodeTableWord 24 0x1234AD = some (.ldaAbs 0x1234) := by rfl

/-- A word of the table runs as the first instruction after reset (R140: three bytes, four cycles; memory is clear). -/
theorem test_fetch_word_runs :
    (nextOf (step (State.reset.withFetchWord 24 0x1234AD))).map (fun t => (t.pc, t.cycles, t.a)) =
      some (0xFF03, 4, 0x00) := by decide

/-! ### Well-formedness smoke tests -/

theorem test_repeated_opcode_refused :
    Opcodes.distinct { ldaImm := 0xA9, ldaZp := 0xA5, ldaZpx := 0xA9, ldaAbs := 0xAD } = false := by decide

theorem test_default_opcodes_distinct : Config.opcodes.distinct = true := by decide

theorem test_repeated_table_key_refused :
    ¬ ITable.wf [(0xA9, ⟨.immediate, .identity, .loadA⟩), (0xA9, ⟨.zeroPage, .identity, .loadA⟩)] := by decide

theorem test_sizes_out_of_range_refused : memSizeOk 0 = false ∧ memSizeOk 65537 = false := by decide

theorem test_sizes_at_the_bounds : memSizeOk 1 = true ∧ memSizeOk 65536 = true := by decide

theorem test_unsorted_memory_refused : ¬ Memory.wf { size := 65536, cells := [(2, 1), (1, 1)] } := by decide

theorem test_listed_clear_value_refused : ¬ Memory.wf { size := 65536, cells := [(1, 0)] } := by decide

theorem test_cell_beyond_size_refused : ¬ Memory.wf { size := 16, cells := [(16, 1)] } := by decide

theorem test_every_instruction_well_formed :
    (Instr.ldaImm 0xFF).wf = true ∧ (Instr.ldaZp 0xFF).wf = true ∧ (Instr.ldaZpx 0xFF).wf = true ∧
      (Instr.ldaAbs 0xFFFF).wf = true := by decide

/-! ### One step, against the vectors -/

/-- S5: A9 84 at 0xFF00. -/
theorem test_lda_imm_S5 :
    nextOf (step (launch 65536 0xFF00 [(0xFF00, 0xA9), (0xFF01, 0x84)])) =
      some { launch 65536 0xFF02 [(0xFF00, 0xA9), (0xFF01, 0x84)] with
        a := 0x84, cycles := 2, flags := { Flags.allClear with negative := true } } := by decide

/-- V1 row 7: all of C, I, D, B, V, N true before, Z and N rewritten, the others kept; P4: the opcode at 0xFFFF. -/
theorem test_lda_imm_stale_flags_and_wrap :
    (nextOf (step { launch 65536 0xFFFF [(0xFFFF, 0xA9)] with flags := ⟨true, false, true, true, true, true, true⟩ })).map
      (fun t => (t.a, t.pc, t.flags)) = some (0x00, 0x0001, ⟨true, true, true, true, true, true, false⟩) := by decide

/-- V2 row 1: A5 00, 0x0000 holds 9C. -/
theorem test_lda_zp_V2 :
    (nextOf (step (launch 65536 0xFF00 [(0, 0x9C), (0xFF00, 0xA5)]))).map
      (fun t => (t.a, t.pc, t.cycles, t.flags.zero, t.flags.negative)) = some (0x9C, 0xFF02, 3, false, true) := by decide

/-- S6: A5 42, 0x0042 holds 00; 0x0142 holds 77. -/
theorem test_lda_zp_S6 :
    (nextOf (step (launch 65536 0xFF00 [(0x142, 0x77), (0xFF00, 0xA5), (0xFF01, 0x42)]))).map
      (fun t => (t.a, t.cycles, t.flags.zero, t.flags.negative)) = some (0x00, 3, true, false) := by decide

/-- S7: B5 80 with X = FF reads 0x007F, not 0x017F. -/
theorem test_lda_zpx_S7 :
    (nextOf (step { launch 65536 0xFF00 [(0x7F, 0x11), (0x17F, 0x22), (0xFF00, 0xB5), (0xFF01, 0x80)] with x := 0xFF })).map
      (fun t => (t.a, t.x, t.pc, t.cycles)) = some (0x11, 0xFF, 0xFF02, 4) := by decide

/-- V3 row 2: B5 FF with X = 01 reads 0x0000. -/
theorem test_lda_zpx_V3 :
    (nextOf (step { launch 65536 0xFF00 [(0, 0xE0), (0x100, 0x55), (0xFF00, 0xB5), (0xFF01, 0xFF)] with x := 0x01 })).map
      (fun t => (t.a, t.flags.negative, t.cycles)) = some (0xE0, true, 4) := by decide

/-- V4 row 5: AD 12 34 reads 0x3412, the first operand byte being the low one. -/
theorem test_lda_abs_byte_order_V4 :
    (nextOf (step (launch 65536 0xFF00 [(0x1234, 0x99), (0x3412, 0x6A), (0xFF00, 0xAD), (0xFF01, 0x12), (0xFF02, 0x34)]))).map
      (fun t => (t.a, t.pc, t.cycles)) = some (0x6A, 0xFF03, 4) := by decide

/-- V4 row 4: AD 00 FF reads its own opcode byte. -/
theorem test_lda_abs_own_byte_V4 :
    (nextOf (step (launch 65536 0xFF00 [(0xFF00, 0xAD), (0xFF02, 0xFF)]))).map (fun t => t.a) = some 0xAD := by decide

/-- V6: EA is undefined, reported with its address. -/
theorem test_undefined_opcode_V6 :
    nextOf (step (launch 65536 0xFF00 [(0xFF00, 0xEA)])) =
      some { launch 65536 0xFF01 [(0xFF00, 0xEA)] with cycles := 1, diag := [⟨0xEA, 0xFF00⟩] } := by decide

/-- V8 row 2: MEM_SIZE FF01, the operand fetch of A9 fails. -/
theorem test_abort_operand_fetch_V8 :
    faultOf (step (launch 0xFF01 0xFF00 [(0xFF00, 0xA9)])) =
      some (.addressOutOfBounds 0xFF01 0xFF01 { launch 0xFF01 0xFF01 [(0xFF00, 0xA9)] with cycles := 1 }) := by decide

/-- V8 row 4: MEM_SIZE FF10, the data read of AD 10 FF fails after three cycles. -/
theorem test_abort_data_read_V8 :
    faultOf (step (launch 0xFF10 0xFF00 [(0xFF00, 0xAD), (0xFF01, 0x10), (0xFF02, 0xFF)])) =
      some (.addressOutOfBounds 0xFF10 0xFF10
        { launch 0xFF10 0xFF03 [(0xFF00, 0xAD), (0xFF01, 0x10), (0xFF02, 0xFF)] with cycles := 3 }) := by decide

/-- V5: the Accumulator resolver. -/
theorem test_accumulator_resolver_V5 :
    resolveAccumulator { State.reset with a := 0x5A } = .done 0x5A { State.reset with a := 0x5A } := by rfl

/-- V3 row 7 at resolver level: Zero Page,Y with Y = 10, base F8, reads 0x0008. -/
theorem test_zero_page_y_V3 : indexedAddr 0xF8 0x10 = 0x0008 := by decide

/-- R174: a table that maps an opcode to the Zero Page,Y mode runs it (4 cycles, R220). -/
theorem test_zero_page_y_entry_runs :
    (nextOf (step { launch 65536 0xFF00 [(0x08, 0x33), (0xFF00, 0xB6), (0xFF01, 0xF8)] with
      y := 0x10, itable := ITable.register defaultTable 0xB6 ⟨.zeroPageY, .identity, .loadA⟩ })).map
      (fun t => (t.a, t.pc, t.cycles)) = some (0x33, 0xFF02, 4) := by decide

/-- R174: an entry (Immediate, v + 1, LoadA) runs by the same step: 7F is loaded as 80 (R121: N set), two bytes, two cycles (R108). -/
theorem test_increment_entry_runs :
    (nextOf (step { launch 65536 0xFF00 [(0xFF00, 0x1A), (0xFF01, 0x7F)] with
      itable := ITable.register defaultTable 0x1A ⟨.immediate, Transform.ofFunction (· + 1), .loadA⟩ })).map
      (fun t => (t.a, t.pc, t.cycles, t.flags.negative)) = some (0x80, 0xFF02, 2, true) := by decide +kernel

/-- R82: the transformation comes from the entry, so bytes whose entry is not an identity load are no row of the opcode table. -/
theorem test_increment_entry_is_no_row :
    decodeWith [(0x1A, ⟨.immediate, Transform.ofFunction (· + 1), .loadA⟩)] [0x1A, 0x7F] = .error (.noTableRow 0x1A) := by rfl

/-- S8: 02 A9 01, `execute(3)`: a report, then the load. -/
theorem test_execute_S8 :
    execute 3 (launch 65536 0xFF00 [(0xFF00, 0x02), (0xFF01, 0xA9), (0xFF02, 0x01)]) =
      (.ok, { launch 65536 0xFF03 [(0xFF00, 0x02), (0xFF01, 0xA9), (0xFF02, 0x01)] with
        a := 0x01, cycles := 3, diag := [⟨0x02, 0xFF00⟩] }) := by decide

/-- V9: reset keeps the reports and clears the rest. -/
theorem test_reset_V9 :
    hostReset { launch 65536 0x1234 [(7, 7)] with
      a := 0x12, x := 0x34, y := 0x56, sp := 0x01F0, cycles := 999, diag := [⟨0x02, 0xFF00⟩]
      flags := ⟨true, true, true, true, true, true, true⟩ } =
    { State.reset with diag := [⟨0x02, 0xFF00⟩] } := by decide

/-! ### Witnesses: states and operands that meet each statement's hypotheses -/

/-- A9 00 at 0xFF00 in the whole address space. -/
def immState : State := launch 65536 0xFF00 [(0xFF00, 0xA9)]

/-- A5 42 at 0xFF00. -/
def zpState : State := launch 65536 0xFF00 [(0x42, 0x80), (0xFF00, 0xA5), (0xFF01, 0x42)]

/-- B5 80 at 0xFF00 with X = FF, whose sum wraps. -/
def zpxState : State := { launch 65536 0xFF00 [(0x7F, 0x11), (0xFF00, 0xB5), (0xFF01, 0x80)] with x := 0xFF }

/-- AD FF FF at 0xFF00: the last address. -/
def absState : State := launch 65536 0xFF00 [(0xFF00, 0xAD), (0xFF01, 0xFF), (0xFF02, 0xFF)]

/-- EA at 0xFF00. -/
def missState : State := launch 65536 0xFF00 [(0xFF00, 0xEA)]

/-- EA at 0xFF00 with a table that maps it to the Accumulator mode. -/
def accState : State :=
  { missState with itable := ITable.register defaultTable 0xEA ⟨.accumulator, .identity, .loadA⟩ }

/-- B6 F8 at 0xFF00 with a table that maps B6 to the Zero Page,Y mode. -/
def yState : State :=
  { launch 65536 0xFF00 [(0xFF00, 0xB6), (0xFF01, 0xF8)] with
    y := 0x10, itable := ITable.register defaultTable 0xB6 ⟨.zeroPageY, .identity, .loadA⟩ }

/-- EA at 0xFF00 with a table that maps it to the complement of a mode's operand. -/
def transformState (size : Nat) (r : Resolver) : State :=
  { launch size 0xFF00 [(0xFF00, 0xEA)] with
    itable := ITable.register defaultTable 0xEA ⟨r, Transform.ofFunction (fun v => ~~~v), .loadA⟩ }

/-- No byte at 0xFF00. -/
def noFetchState : State := launch 0xFF00 0xFF00 []

theorem witness_ResetPowersUpEveryElement : State.reset.run = .idle := by rfl

theorem witness_ExecuteZeroRunsNoStep : immState.run = .idle := by rfl

theorem witness_AccessorsReadWithoutChange : zpxState.run = .idle := by rfl

theorem witness_RequestsAreServedWhenIdleOnly_running : { State.reset with run := .running }.run = RunState.running := by rfl

theorem witness_RequestsAreServedWhenIdleOnly_idle : State.reset.run = RunState.idle := by rfl

theorem witness_OutOfBoundsAnswerNamesAddressAndSize : noFetchState.mem.size ≤ (0xFF00 : Addr).toNat := by decide

theorem witness_MemReadAnswersBelowMemSizeOnly :
    memRead 0xFF00 immState = .done 0xA9 immState ∧ immState.mem.size = 65536 := ⟨rfl, rfl⟩

theorem witness_MemWriteStoresOneByte_inBounds :
    noFetchState.mem.wf ∧ (0xFEFF : Addr).toNat < noFetchState.mem.size := by decide

theorem witness_MemWriteStoresOneByte_outOfBounds : noFetchState.mem.size ≤ (0xFF00 : Addr).toNat := by decide

theorem witness_MemWriteStoresOneByte_next : (nextOf (step immState)).isSome = true := by decide

theorem witness_MemWriteStoresOneByte_fault : (faultOf (step noFetchState)).isSome = true := by decide

theorem witness_CanonicalMemoryIsItsContent :
    immState.mem.wf ∧ immState.mem.size = immState.mem.size ∧
      ∀ addr : Addr, immState.mem.get addr = immState.mem.get addr :=
  ⟨by decide, rfl, fun _ => rfl⟩

theorem witness_AccountingPrimitives_done :
    immState.mem.get immState.pc = some 0xA9 ∧ immState.mem.get 0xFFFF = some 0x00 := by decide

theorem witness_AccountingPrimitives_abort :
    noFetchState.mem.get noFetchState.pc = none ∧ noFetchState.mem.get 0xFF00 = none := by decide

theorem witness_DecodeInvertsEncodeForAnyOpcodes :
    Opcodes.distinct { ldaImm := 0x00, ldaZp := 0x01, ldaZpx := 0xFE, ldaAbs := 0xFF } = true ∧
      (Instr.ldaAbs 0xFFFF).wf = true := by decide

theorem witness_DecodedBytesAreTheEncoding :
    decodeWith (buildTable Config.opcodes) [0xAD, 0x34, 0x12, 0x77] = .ok (.ldaAbs 0x1234, [0x77]) := by rfl

theorem witness_DecodeAssemblesOperands_immediate :
    defaultTable.lookup 0xA9 = some ⟨.immediate, .identity, .loadA⟩ := by decide

theorem witness_DecodeAssemblesOperands_absolute :
    defaultTable.lookup 0xAD = some ⟨.absolute, .identity, .loadA⟩ := by decide

theorem witness_ImmediateAndAccumulatorResolvers :
    immState.mem.get immState.pc = some 0xA9 ∧ noFetchState.mem.get noFetchState.pc = none := by decide

theorem witness_ImmediateAndAccumulatorResolvers_entry :
    accState.mem.get accState.pc = some 0xEA ∧
      accState.itable.lookup 0xEA = some ⟨.accumulator, .identity, .loadA⟩ := by decide

theorem witness_ZeroPageYResolver_done :
    (launch 16 0x0000 [(0, 0x0F)]).mem.get 0x0000 = some 0x0F ∧
      (launch 16 0x0000 [(0, 0x0F)]).mem.get (BitVec.ofNat 16 (((0x0F : Byte).toNat + 0) % 256)) = some 0x00 := by decide

theorem witness_ZeroPageYResolver_abort :
    (launch 16 0x0000 [(0, 0x10)]).mem.get 0x0000 = some 0x10 ∧
      (launch 16 0x0000 [(0, 0x10)]).mem.get (BitVec.ofNat 16 (((0x10 : Byte).toNat + 0) % 256)) = none := by decide

theorem witness_ResolverMovesOnlyPcAndCycles :
    ∀ r ∈ ([.immediate, .zeroPage, .zeroPageX, .zeroPageY, .absolute, .accumulator] : List Resolver),
      (match resolve r zpxState with
        | .done _ _ => true
        | .abort _ => false) = true := by decide

theorem witness_LdaZeroPageLoadsTheByte :
    zpState.mem.get (BitVec.ofNat 16 (0x42 : Byte).toNat) = some 0x80 := by decide

theorem witness_LdaZeroPageXLoadsTheWrappedByte :
    zpxState.mem.get (BitVec.ofNat 16 (((0x80 : Byte).toNat + zpxState.x.toNat) % 256)) = some 0x11 := by decide

theorem witness_LdaAbsoluteLoadsTheByte : absState.mem.get 0xFFFF = some 0x00 := by decide

theorem witness_LdaFrame :
    (nextOf (exec (.ldaImm 0x80) immState)).isSome = true ∧ (nextOf (exec (.ldaZp 0x42) zpState)).isSome = true ∧
      (nextOf (exec (.ldaZpx 0x80) zpxState)).isSome = true ∧ (nextOf (exec (.ldaAbs 0xFFFF) absState)).isSome = true := by
  decide

theorem witness_StepRunsTheDecodedInstruction :
    absState.mem.holds absState.pc [0xAD, 0xFF, 0xFF] ∧
      decodeWith absState.itable [0xAD, 0xFF, 0xFF] = .ok (.ldaAbs 0xFFFF, []) ∧ (Instr.ldaAbs 0xFFFF).wf = true :=
  ⟨⟨by decide, by decide, by decide, trivial⟩, rfl, rfl⟩

theorem witness_StepIsTheSpecsStep : (nextOf (step missState)).isSome = true := by decide

theorem witness_LdaImmediateStep :
    (launch 65536 0xFFFF [(0xFFFF, 0xA9)]).mem.get 0xFFFF = some 0xA9 ∧
      defaultTable.lookup 0xA9 = some ⟨.immediate, .identity, .loadA⟩ ∧
      (launch 65536 0xFFFF [(0xFFFF, 0xA9)]).mem.get (0xFFFF + 1) = some 0x00 := by decide

theorem witness_LdaZeroPageStep :
    zpState.mem.get zpState.pc = some 0xA5 ∧ zpState.itable.lookup 0xA5 = some ⟨.zeroPage, .identity, .loadA⟩ ∧
      zpState.mem.get (zpState.pc + 1) = some 0x42 ∧
      zpState.mem.get (BitVec.ofNat 16 (0x42 : Byte).toNat) = some 0x80 := by decide

theorem witness_LdaZeroPageXStep :
    zpxState.mem.get zpxState.pc = some 0xB5 ∧ zpxState.itable.lookup 0xB5 = some ⟨.zeroPageX, .identity, .loadA⟩ ∧
      zpxState.mem.get (zpxState.pc + 1) = some 0x80 ∧
      zpxState.mem.get (BitVec.ofNat 16 (((0x80 : Byte).toNat + zpxState.x.toNat) % 256)) = some 0x11 := by decide

theorem witness_LdaAbsoluteStep :
    absState.mem.get absState.pc = some 0xAD ∧ absState.itable.lookup 0xAD = some ⟨.absolute, .identity, .loadA⟩ ∧
      absState.mem.get (absState.pc + 1) = some 0xFF ∧ absState.mem.get (absState.pc + 2) = some 0xFF ∧
      absState.mem.get (BitVec.ofNat 16 ((0xFF : Byte).toNat * 256 + (0xFF : Byte).toNat)) = some 0x00 := by decide

theorem witness_StepRunsAnyTransformation (r : Resolver) :
    (transformState 65536 r).mem.get (transformState 65536 r).pc = some 0xEA ∧
      (transformState 65536 r).itable.lookup 0xEA = some ⟨r, Transform.ofFunction (fun v => ~~~v), .loadA⟩ :=
  ⟨rfl, rfl⟩

/-- Every mode's operand is readable in the whole address space; with nothing after the opcode byte an absolute one is not. -/
theorem witness_StepRunsAnyTransformation_outcomes :
    (∀ r ∈ ([.immediate, .zeroPage, .zeroPageX, .zeroPageY, .absolute, .accumulator] : List Resolver),
      (match resolve r { transformState 65536 r with pc := 0xFF01, cycles := 1 } with
        | .done _ _ => true
        | .abort _ => false) = true) ∧
      (match resolve .absolute { transformState 0xFF01 .absolute with pc := 0xFF01, cycles := 1 } with
        | .done _ _ => false
        | .abort _ => true) = true := by decide

theorem witness_UndefinedOpcodeIsReportedAndSkipped :
    missState.mem.get missState.pc = some 0xEA ∧ missState.itable.lookup 0xEA = none := by decide

theorem witness_Abort_opcodeFetch : noFetchState.mem.get noFetchState.pc = none := by decide

theorem witness_Abort_operandByte1 :
    (launch 0xFF01 0xFF00 [(0xFF00, 0xA9)]).mem.get 0xFF00 = some 0xA9 ∧
      defaultTable.lookup 0xA9 = some ⟨.immediate, .identity, .loadA⟩ ∧ Resolver.immediate ≠ .accumulator ∧
      (launch 0xFF01 0xFF00 [(0xFF00, 0xA9)]).mem.get (0xFF00 + 1) = none := by decide

theorem witness_Abort_operandByte2 :
    (launch 0xFF02 0xFF00 [(0xFF00, 0xAD)]).mem.get 0xFF00 = some 0xAD ∧
      defaultTable.lookup 0xAD = some ⟨.absolute, .identity, .loadA⟩ ∧
      (launch 0xFF02 0xFF00 [(0xFF00, 0xAD)]).mem.get (0xFF00 + 1) = some 0x00 ∧
      (launch 0xFF02 0xFF00 [(0xFF00, 0xAD)]).mem.get (0xFF00 + 2) = none := by decide

theorem witness_Abort_zeroPageRead :
    (launch 2 0x0000 [(0, 0xA5), (1, 0x02)]).mem.get 0x0000 = some 0xA5 ∧
      defaultTable.lookup 0xA5 = some ⟨.zeroPage, .identity, .loadA⟩ ∧
      (launch 2 0x0000 [(0, 0xA5), (1, 0x02)]).mem.get (0x0000 + 1) = some 0x02 ∧
      (launch 2 0x0000 [(0, 0xA5), (1, 0x02)]).mem.get (BitVec.ofNat 16 (0x02 : Byte).toNat) = none := by decide

theorem witness_Abort_zeroPageXRead :
    (launch 2 0x0000 [(0, 0xB5), (1, 0x02)]).mem.get 0x0000 = some 0xB5 ∧
      defaultTable.lookup 0xB5 = some ⟨.zeroPageX, .identity, .loadA⟩ ∧
      (launch 2 0x0000 [(0, 0xB5), (1, 0x02)]).mem.get (0x0000 + 1) = some 0x02 ∧
      (launch 2 0x0000 [(0, 0xB5), (1, 0x02)]).mem.get (BitVec.ofNat 16 (((0x02 : Byte).toNat + 0) % 256)) = none := by decide

theorem witness_Abort_absoluteRead :
    (launch 0xFF10 0xFF00 [(0xFF00, 0xAD), (0xFF01, 0x10), (0xFF02, 0xFF)]).mem.get (0xFF00 + 2) = some 0xFF ∧
      defaultTable.lookup 0xAD = some ⟨.absolute, .identity, .loadA⟩ ∧
      (launch 0xFF10 0xFF00 [(0xFF00, 0xAD), (0xFF01, 0x10), (0xFF02, 0xFF)]).mem.get 0xFF00 = some 0xAD ∧
      (launch 0xFF10 0xFF00 [(0xFF00, 0xAD), (0xFF01, 0x10), (0xFF02, 0xFF)]).mem.get (0xFF00 + 1) = some 0x10 ∧
      (launch 0xFF10 0xFF00 [(0xFF00, 0xAD), (0xFF01, 0x10), (0xFF02, 0xFF)]).mem.get
        (BitVec.ofNat 16 ((0xFF : Byte).toNat * 256 + (0x10 : Byte).toNat)) = none := by decide

theorem witness_FaultsOnlyOutOfBoundsAndTouchNoRegister :
    step noFetchState = .fault (.addressOutOfBounds 0xFF00 0xFF00 noFetchState) := by rfl

theorem witness_FullMemoryNeverFaults :
    missState.mem.size = 65536 ∧ noFetchState.run = .idle ∧ noFetchState.mem.size ≤ 0xFF00 := by decide

theorem witness_ProgramCounterMovesByInstructionLength_eachArm :
    ∀ s ∈ [missState, accState, immState, zpState, zpxState, yState, absState], (nextOf (step s)).isSome = true := by decide

theorem witness_ProgramCounterMovesByInstructionLength_opcodeFetchAborts :
    (faultOf (step noFetchState)).isSome = true ∧ noFetchState.mem.get noFetchState.pc = none := by decide

/-- AD 10 FF below a capacity of 0xFF01, 0xFF02 and 0xFF10: the low byte, the high byte, the data read fails. -/
theorem witness_ProgramCounterMovesByInstructionLength_laterAborts :
    (faultOf (step (launch 0xFF01 0xFF00 [(0xFF00, 0xAD)]))).isSome = true ∧
      (faultOf (step (launch 0xFF02 0xFF00 [(0xFF00, 0xAD), (0xFF01, 0x10)]))).isSome = true ∧
      (faultOf (step (launch 0xFF10 0xFF00 [(0xFF00, 0xAD), (0xFF01, 0x10), (0xFF02, 0xFF)]))).isSome = true := by decide

theorem witness_ProgramCounterMovesByInstructionLength_operations :
    (match fetchByte immState with | .done _ _ => true | .abort _ => false) = true ∧
      (match readByte 0x42 zpState with | .done _ _ => true | .abort _ => false) = true ∧
      (match memWrite 0x42 0x01 zpState with | .done _ _ => true | .abort _ => false) = true ∧
      (hostCall (.inspect .pc) absState).isSome = true := by decide

theorem witness_CycleCostIsFixedPerOpcode :
    absState.itable = defaultTable ∧ (nextOf (step absState)).isSome = true := by decide

theorem witness_StepLeavesInertStateAlone_next : (nextOf (step zpxState)).isSome = true := by decide

theorem witness_StepLeavesInertStateAlone_fault : (faultOf (step noFetchState)).isSome = true := by decide

theorem witness_StepLeavesInertStateAlone_request :
    HostRequest.execute 2 ≠ .reset ∧ (hostCall (.execute 2) immState).isSome = true ∧
      HostRequest.inspect .carry ≠ .reset ∧ (hostCall (.inspect .carry) immState).isSome = true := by decide

theorem witness_PlacedWordRunsNext :
    State.reset.mem.wf ∧ State.reset.itable = defaultTable ∧ decodeTableWord 16 0x84A9 = some (.ldaImm 0x84) := by decide

theorem witness_EveryStepKeepsTheInvariant : immState.Inv ∧ (nextOf (step immState)).isSome = true :=
  ⟨⟨by decide, by decide, by decide⟩, by decide⟩

theorem witness_EveryStepKeepsTheInvariant_fault : noFetchState.Inv ∧ (faultOf (step noFetchState)).isSome = true :=
  ⟨⟨by decide, by decide, by decide⟩, by decide⟩

theorem witness_EveryHostRequestKeepsTheInvariant :
    immState.mem.wf ∧ immState.Inv ∧ (hostCall (.execute 2) immState).isSome = true :=
  ⟨by decide, ⟨by decide, by decide, by decide⟩, by decide⟩

theorem witness_ReportsStayTrue :
    { missState with diag := [⟨0xEA, 0xFF00⟩] }.reportsTrue ∧
      (nextOf (step { missState with diag := [⟨0xEA, 0xFF00⟩] })).isSome = true := by
  refine ⟨fun r hr => ?_, by decide⟩
  obtain rfl := List.mem_singleton.mp hr
  decide

theorem witness_LoopSatisfiesTheWhileEquation :
    0 ≤ immState.cycles ∧ 1 - consumed .perCall 0 immState ≤ 1 := by decide

theorem witness_NormalReturnMeetsTheBudget : (execute 1 immState).1 = .ok := by decide

theorem witness_ExecuteAnswersOkOrOutOfBounds : immState.mem.size = 65536 := by rfl

theorem witness_ConsecutiveCallsComposeIntoOne : (execute 2 immState).1 = .ok := by decide

theorem witness_BudgetBasesAgreeOnTheFirstCall : immState.cycles = 0 := by rfl

theorem witness_CallAtUnreadablePcChangesNothing :
    noFetchState.run = .idle ∧ noFetchState.mem.get noFetchState.pc = none ∧ 0 < 1 := by decide

theorem witness_ClearedMemoryRunsUndefinedOpcodes : immState.run = .idle ∧ immState.mem.size = 65536 := by decide

end Sys2Proof.Tests
end

section
/-! PROOF. The step by its table entry, what a completed and an aborted step do to PC, and the statements of 10_state.md. -/

namespace Sys2Proof.Machine

/-! ### The step runs the adapter on the table entry -/

section StepByEntry

variable {s : State} {op : Byte} {ins : Instruction}

/-- An entry that is no row of the opcode table goes to the adapter; where its stream bytes cannot be fetched, the fetch and the
resolver raise alike. -/
theorem step_of_noTableRow (h : s.mem.get s.pc = some op) (hl : s.itable.lookup op = some ins)
    (hn : ∀ bytes, parseOperands op ins bytes = .error (.noTableRow op)) : step s = execInstr ins s.afterOpcode := by
  have hf := fetchInstr_unit h hl hn
  cases hb : fetchBytes ins.resolver.streamBytes s.afterOpcode with
  | done bs t => rw [hb] at hf; exact step_of_unit hf
  | abort e =>
    rw [hb] at hf
    rw [step_of_abort hf, execInstr, resolve_of_fetchBytes_abort hb, adapt_abort]

/-- A two-byte LDA: its one stream byte is fetched and handed to the operand half of its mode, as the mode's resolver does. -/
theorem step_of_oneByteOperand {form : Byte → Instr} {half : Byte → State → Access Byte}
    (hf : fetchInstr s = match fetchByte s.afterOpcode with
      | .done v t => .instr (form v) t
      | .abort e => .abort e)
    (hexec : ∀ v t, exec (form v) t = adapt .identity .loadA (half v t)) :
    step s = adapt .identity .loadA ((fetchByte s.afterOpcode).bind half) := by
  cases hb : fetchByte s.afterOpcode with
  | done v t => rw [hb] at hf; rw [step_of_instr hf, hexec, Access.bind_done]
  | abort e => rw [hb] at hf; rw [step_of_abort hf, Access.bind_abort, adapt_abort]

/-- R160, R135: once the opcode byte has an entry, a step is the adapter on the entry's own three parts, whether the entry is one
of the four LDAs or not. -/
theorem step_of_entry (h : s.mem.get s.pc = some op) (hl : s.itable.lookup op = some ins) :
    step s = execInstr ins s.afterOpcode := by
  obtain ⟨r, f, applier⟩ := ins
  cases applier
  cases f with
  | table values => exact step_of_noTableRow h hl (parseOperands_noTableRow (.inr (.inr (by simp))) op)
  | identity =>
    cases r with
    | zeroPageY => exact step_of_noTableRow h hl (parseOperands_noTableRow (.inl rfl) op)
    | accumulator => exact step_of_noTableRow h hl (parseOperands_noTableRow (.inr (.inl rfl)) op)
    | immediate => exact step_of_oneByteOperand (fetchInstr_immediate h hl) fun _ _ => rfl
    | zeroPage => exact step_of_oneByteOperand (fetchInstr_zeroPage h hl) fun _ _ => rfl
    | zeroPageX => exact step_of_oneByteOperand (fetchInstr_zeroPageX h hl) fun _ _ => rfl
    | absolute =>
      simp only [step, fetchInstr_absolute h hl, execInstr, resolve, resolveAbsolute]
      cases fetchByte s.afterOpcode with
      | abort e => rfl
      | done lo t =>
        simp only [Access.bind_done]
        cases fetchByte t <;> rfl

/-- Everything a step that completes has done: reported an undefined opcode, or loaded its entry's transformed operand. -/
theorem step_eq_next {t : State} (h : step s = .next t) : ∃ op, s.mem.get s.pc = some op ∧
    ((s.itable.lookup op = none ∧ t = reportUndefined op s.pc s.afterOpcode) ∨
      ∃ ins v u, s.itable.lookup op = some ins ∧ resolve ins.resolver s.afterOpcode = .done v u ∧
        t = applyLoadA (transformByte ins.transform v) u) := by
  cases hg : s.mem.get s.pc with
  | none => rw [step_of_abort (fetchInstr_abort hg)] at h; cases h
  | some op =>
    refine ⟨op, rfl, ?_⟩
    cases hl : s.itable.lookup op with
    | none =>
      rw [step_of_miss (fetchInstr_miss hg hl)] at h
      cases h
      exact .inl ⟨rfl, rfl⟩
    | some ins =>
      rw [step_of_entry hg hl] at h
      obtain ⟨v, u, hr, ht⟩ := adapt_eq_next h
      exact .inr ⟨ins, v, u, rfl, hr, ht⟩

/-- Everything a step that faults has done: failed to fetch its opcode byte, or raised in the resolver of its entry. -/
theorem step_eq_fault {e : Fault} (h : step s = .fault e) :
    (s.mem.get s.pc = none ∧ e = .addressOutOfBounds s.pc s.mem.size (s.setRun .idle)) ∨
      ∃ op ins, s.mem.get s.pc = some op ∧ s.itable.lookup op = some ins ∧
        resolve ins.resolver s.afterOpcode = .abort e := by
  cases hg : s.mem.get s.pc with
  | none =>
    rw [step_of_abort (fetchInstr_abort hg)] at h
    cases h
    exact .inl ⟨rfl, rfl⟩
  | some op =>
    cases hl : s.itable.lookup op with
    | none => rw [step_of_miss (fetchInstr_miss hg hl)] at h; cases h
    | some ins =>
      rw [step_of_entry hg hl] at h
      exact .inr ⟨op, ins, rfl, hl, adapt_eq_fault h⟩

end StepByEntry

/-! ### What a resolver that completes leaves -/

/-- The cycles of an addressing mode after the opcode fetch (R108): its stream bytes, the index addition, the data read. -/
def resolverCost : Resolver → Nat
  | .immediate => 1
  | .zeroPage => 2
  | .zeroPageX => 3
  | .zeroPageY => 3
  | .absolute => 3
  | .accumulator => 0

/-- R100, R108, R109: a resolver that completes moves PC past its stream bytes and charges its cost, and nothing else. -/
theorem resolve_eq_done {r : Resolver} {s t : State} {v : Byte} (h : resolve r s = .done v t) :
    t = { s with pc := s.pc + BitVec.ofNat 16 r.streamBytes, cycles := s.cycles + resolverCost r } := by
  cases r with
  | accumulator =>
    cases h
    simp [Resolver.streamBytes, resolverCost]
  | immediate =>
    obtain ⟨_, _, hb, h⟩ := Access.bind_eq_done h
    obtain ⟨-, rfl⟩ := fetchByte_eq_done hb
    cases h
    rfl
  | zeroPage | zeroPageX | zeroPageY =>
    obtain ⟨_, _, hb, h⟩ := Access.bind_eq_done h
    obtain ⟨-, rfl⟩ := fetchByte_eq_done hb
    obtain ⟨-, rfl⟩ := readByte_eq_done h
    rfl
  | absolute =>
    obtain ⟨_, _, hb, h⟩ := Access.bind_eq_done h
    obtain ⟨-, rfl⟩ := fetchByte_eq_done hb
    obtain ⟨_, _, hc, h⟩ := Access.bind_eq_done h
    obtain ⟨-, rfl⟩ := fetchByte_eq_done hc
    obtain ⟨-, rfl⟩ := readByte_eq_done h
    simp [State.charge, State.advancePc, Resolver.streamBytes, resolverCost, BitVec.add_assoc]

/-! ### PC as a number -/

/-- PC after `n` bytes, modulo 65536 (R26). -/
theorem pc_add_toNat (pc : Addr) (n : Nat) : (pc + BitVec.ofNat 16 n).toNat = (pc.toNat + n) % 65536 := by
  rw [BitVec.toNat_add, BitVec.toNat_ofNat, Nat.add_mod_mod]

/-- One byte and then `n` more are `n + 1` bytes. -/
theorem pc_succ_add (pc : Addr) (n : Nat) : pc + 1 + BitVec.ofNat 16 n = pc + BitVec.ofNat 16 (n + 1) := by
  apply BitVec.eq_of_toNat_eq
  rw [pc_add_toNat, pc_add_toNat, show (pc + 1 : Addr).toNat = _ from pc_add_toNat pc 1]
  omega

/-! ### PC through a step -/

/-- PC after a completed step: past the opcode byte, and past the stream bytes of the entry's mode if there is an entry. -/
theorem pc_of_step_eq_next {s t : State} (h : step s = .next t) : ∃ op, s.mem.get s.pc = some op ∧
    ((s.itable.lookup op = none ∧ t.pc = s.pc + 1) ∨
      ∃ ins, s.itable.lookup op = some ins ∧ t.pc = s.pc + BitVec.ofNat 16 (ins.resolver.streamBytes + 1)) := by
  obtain ⟨op, hg, ⟨hl, rfl⟩ | ⟨ins, v, u, hl, hr, rfl⟩⟩ := step_eq_next h
  · exact ⟨op, hg, .inl ⟨hl, rfl⟩⟩
  · obtain rfl := resolve_eq_done hr
    exact ⟨op, hg, .inr ⟨ins, hl, pc_succ_add s.pc _⟩⟩

/-- PC after an aborted step (D9): where it was if the opcode byte cannot be fetched, else past the `n` bytes that were fetched. -/
theorem pc_of_step_eq_fault {s left : State} {addr : Addr} {size : Nat}
    (h : step s = .fault (.addressOutOfBounds addr size left)) :
    (s.mem.get s.pc = none ∧ left.pc = s.pc) ∨
      ∃ op ins n, s.mem.get s.pc = some op ∧ s.itable.lookup op = some ins ∧ 1 ≤ n ∧ n ≤ 1 + ins.resolver.streamBytes ∧
        (∀ j, j < n → s.mem.get (s.pc + BitVec.ofNat 16 j) ≠ none) ∧
        (n < 1 + ins.resolver.streamBytes → s.mem.get (s.pc + BitVec.ofNat 16 n) = none) ∧
        left.pc = s.pc + BitVec.ofNat 16 n := by
  rcases step_eq_fault h with ⟨hg, he⟩ | ⟨op, ins, hg, hl, hr⟩
  · cases he
    exact .inl ⟨hg, rfl⟩
  · obtain ⟨_, n, _, hn, -, -, hread, hstop, he⟩ := resolve_eq_abort hr
    cases he
    refine .inr ⟨op, ins, n + 1, hg, hl, by omega, by omega, fun j hj => ?_, fun hlt => ?_, pc_succ_add s.pc n⟩
    · cases j with
      | zero => simp [hg]
      | succ j => rw [← pc_succ_add]; exact hread j (by omega)
    · rw [← pc_succ_add]; exact hstop (by omega)

/-- A `MemWrite` that completes replaces the memory alone, so PC stays. -/
theorem pc_of_memWrite_eq_done {s t : State} {addr : Addr} {v : Byte} (h : memWrite addr v s = .done () t) : t.pc = s.pc := by
  rcases memWrite_cases addr v s with ⟨m, -, hw⟩ | ⟨-, hw⟩
  · rw [hw] at h
    cases h
    rfl
  · rw [hw] at h
    cases h

/-! ### Accessors -/

/-- R39: an accessor request to an Idle core answers the accessor's value, in the state as it was. -/
theorem hostCall_inspect {s : State} (h : s.run = .idle) (what : Accessor) :
    hostCall (.inspect what) s = some (s, inspect what s) := by
  simp only [hostCall, h, serve]

/-- An accessor request that is served at all changes no state. -/
theorem hostCall_inspect_state {s t : State} {what : Accessor} {answer : HostAnswer}
    (h : hostCall (.inspect what) s = some (t, answer)) : t = s := by
  cases hr : s.run with
  | idle => rw [hostCall_inspect hr] at h; cases h; rfl
  | running => simp [hostCall, hr] at h

/-! ### The statements -/

/-- Settles O4: each accessor is served by the one accessor rule. -/
theorem accessorsReadWithoutChange : Obligations.AccessorsReadWithoutChange := by
  intro s h
  have rule := hostCall_inspect h
  exact ⟨rule .a, rule .x, rule .y, rule .pc, rule .sp, rule .carry, rule .zero, rule .interruptDisable, rule .decimal,
    rule .brk, rule .overflow, rule .negative, rule .cycles⟩

/-- Settles O37, from what completed and aborted steps do to PC; the operations that are no step by their own rules. -/
theorem programCounterMovesByInstructionLength : Obligations.ProgramCounterMovesByInstructionLength := by
  refine ⟨fun s t h => ?_, fun s left addr size h => ?_, fun s t addr b v r => ⟨?_, ?_, pc_of_memWrite_eq_done, rfl, rfl⟩,
    fun _ _ _ _ h => by rw [hostCall_inspect_state h], fun _ => rfl, fun _ => rfl⟩
  · obtain ⟨op, hg, ⟨hl, hpc⟩ | ⟨⟨mode, f, applier⟩, hl, hpc⟩⟩ := pc_of_step_eq_next h
    · exact ⟨op, hg, by simp only [hl, hpc]; exact pc_add_toNat s.pc 1⟩
    · refine ⟨op, hg, ?_⟩
      simp only [hl, hpc, pc_add_toNat]
      cases mode <;> rfl
  · refine (pc_of_step_eq_fault h).imp id fun ⟨op, ins, n, hg, hl, hpos, hle, hread, hstop, hpc⟩ => ?_
    exact ⟨op, ins, n, hg, hl, hpos, hle, hread, hstop, by rw [hpc, pc_add_toNat]⟩
  · intro h
    obtain ⟨-, rfl⟩ := fetchByte_eq_done h
    rfl
  · intro h
    obtain ⟨-, rfl⟩ := readByte_eq_done h
    rfl

end Sys2Proof.Machine
end

section
/-! PROOF. What a write leaves in memory, what any step leaves of it, when a step cannot raise, and the statements of 20_memory.md. -/

namespace Sys2Proof.Machine

/-! ### A write to memory -/

section MemoryWrite

variable {m m' : Memory} {addr : Addr} {v : Byte}

/-- `set` answers OutOfBounds exactly at the addresses not below the capacity (R52). -/
theorem Memory.set_eq_none : m.set addr v = none ↔ m.size ≤ addr.toNat := by
  unfold Memory.set
  split <;> simp_all

/-- A write keeps the capacity (R54). -/
theorem Memory.size_set (h : m.set addr v = some m') : m'.size = m.size := by
  obtain ⟨-, rfl⟩ := Memory.set_eq_some h
  rfl

/-- The written address reads the written byte; the cells' order is what makes the written cell the one found. -/
theorem Memory.get_set_self (hm : m.wf) (h : m.set addr v = some m') : m'.get addr = some v := by
  obtain ⟨-, hsorted, -⟩ := hm
  obtain ⟨hb, rfl⟩ := Memory.set_eq_some h
  exact Memory.get_eq_some.mpr ⟨hb, cellAt_putCell_self hsorted _ _⟩

/-- Every other address reads as before. -/
theorem Memory.get_set_other {addr' : Addr} (h : m.set addr v = some m') (hne : addr' ≠ addr) :
    m'.get addr' = m.get addr' := by
  obtain ⟨-, rfl⟩ := Memory.set_eq_some h
  have hn : addr'.toNat ≠ addr.toNat := fun he => hne (BitVec.eq_of_toNat_eq he)
  simp only [Memory.get, cellAt_putCell_other _ _ hn]

variable {s : State}

/-- `MemWrite` below the capacity stores through `set`. -/
theorem memWrite_done (v : Byte) (h : addr.toNat < s.mem.size) :
    ∃ m, s.mem.set addr v = some m ∧ memWrite addr v s = .done () (s.setMem m) := by
  rcases memWrite_cases addr v s with hdone | ⟨hnone, -⟩
  · exact hdone
  · exact absurd (Memory.set_eq_none.mp hnone) (Nat.not_le_of_lt h)

/-- `MemWrite` at any other address raises, and leaves all but the run state. -/
theorem memWrite_abort (v : Byte) (h : s.mem.size ≤ addr.toNat) :
    memWrite addr v s = .abort (.addressOutOfBounds addr s.mem.size (s.setRun .idle)) := by
  rcases memWrite_cases addr v s with ⟨m, hset, -⟩ | ⟨-, hw⟩
  · rw [Memory.set_eq_none.mpr h] at hset
    cases hset
  · exact hw

end MemoryWrite

/-! ### Memory and faults through a step -/

section StepOutcomes

variable {s t : State}

/-- A completed step writes no memory: neither a report nor a resolver nor LoadA does. -/
theorem mem_of_step_eq_next (h : step s = .next t) : t.mem = s.mem := by
  obtain ⟨op, -, ⟨-, rfl⟩ | ⟨ins, v, u, -, hr, rfl⟩⟩ := step_eq_next h
  · rfl
  · obtain rfl := resolve_eq_done hr
    rfl

/-- A step that faults names an address not below MEM_SIZE, and MEM_SIZE, and has changed PC, cycles (by at most 3) and the run
state alone (R182; D9, D10). -/
theorem step_eq_fault_frame {e : Fault} (h : step s = .fault e) :
    ∃ (addr pc : Addr) (c : Nat), s.mem.size ≤ addr.toNat ∧ c ≤ 3 ∧
      e = .addressOutOfBounds addr s.mem.size { s with pc := pc, cycles := s.cycles + c, run := .idle } := by
  rcases step_eq_fault h with ⟨hg, rfl⟩ | ⟨op, ins, -, -, hr⟩
  · exact ⟨s.pc, s.pc, 0, Memory.get_eq_none.mp hg, by omega, rfl⟩
  · obtain ⟨addr, n, c, -, hc, hout, -, -, rfl⟩ := resolve_eq_abort hr
    refine ⟨addr, s.pc + 1 + BitVec.ofNat 16 n, 1 + c, hout, by omega, ?_⟩
    simp [State.charge, State.advancePc, Nat.add_assoc]

/-- No step is refused: every table entry runs by the adapter. -/
theorem step_ne_refused {r : Refusal} : step s ≠ .refused r := by
  intro h
  cases hg : s.mem.get s.pc with
  | none => rw [step_of_abort (fetchInstr_abort hg)] at h; cases h
  | some op =>
    cases hl : s.itable.lookup op with
    | none => rw [step_of_miss (fetchInstr_miss hg hl)] at h; cases h
    | some ins =>
      rw [step_of_entry hg hl] at h
      exact adapt_ne_refused h

/-- R54: with every 16-bit address in bounds there is nothing a step could raise on. -/
theorem safeStep_of_full_memory (h : s.mem.size = 65536) : s.safeStep := by
  cases hs : step s with
  | next t => exact ⟨t, hs⟩
  | fault e =>
    obtain ⟨addr, -, -, hout, -, -⟩ := step_eq_fault_frame hs
    have haddr : addr.toNat < 65536 := addr.isLt
    omega
  | refused r => exact absurd hs step_ne_refused

/-- An Idle core whose opcode byte is out of bounds faults at PC, in the state as it was (D9, D10). -/
theorem step_of_idle_of_pc_out (hidle : s.run = .idle) (hout : s.mem.size ≤ s.pc.toNat) :
    step s = .fault (.addressOutOfBounds s.pc s.mem.size s) := by
  have hset : s.setRun .idle = s := by rw [← hidle]; rfl
  rw [step_of_abort (fetchInstr_abort (Memory.get_eq_none.mpr hout)), hset]

end StepOutcomes

/-! ### The statements -/

/-- Settles O7: read after write, the raise, and that neither outcome of a step has touched memory. -/
theorem memWriteStoresOneByte : Obligations.MemWriteStoresOneByte := by
  refine ⟨fun addr v s hm hin => ?_, fun addr v s hout => memWrite_abort v hout, fun s t h => mem_of_step_eq_next h,
    fun s addr n left h => ?_⟩
  · obtain ⟨m, hset, hw⟩ := memWrite_done v hin
    exact ⟨s.setMem m, hw, rfl, Memory.size_set hset, Memory.get_set_self hm hset, fun _ hne => Memory.get_set_other hset hne⟩
  · obtain ⟨_, _, _, -, -, he⟩ := step_eq_fault_frame h
    cases he
    rfl

/-- Settles O36: an address not below 65536 does not exist, and the power-up PC 0xFF00 is not below a capacity of at most 0xFF00. -/
theorem fullMemoryNeverFaults : Obligations.FullMemoryNeverFaults :=
  ⟨fun _ h => safeStep_of_full_memory h, fun s hidle hout => step_of_idle_of_pc_out (s := hostReset s) hidle hout,
    fun m hout => step_of_idle_of_pc_out (s := hostNew m) rfl hout⟩

/-- Settles O6, from the two raises. -/
theorem outOfBoundsAnswerNamesAddressAndSize : Obligations.OutOfBoundsAnswerNamesAddressAndSize :=
  fun _ v _ hout => ⟨⟨_, memRead_abort (Memory.get_eq_none.mpr hout)⟩, ⟨_, memWrite_abort v hout⟩⟩

end Sys2Proof.Machine
end

section
/-! PROOF. What the decoder reads for each kind of table entry, the addresses the operand halves read at, and the statements of
30_encoding.md. -/

namespace Sys2Proof

/-! ### The decoder by its table entry -/

section DecoderByEntry

variable {t : ITable} {op : Byte}

/-- R82: an opcode with an entry leaves the operand bytes to that entry. -/
theorem decodeWith_of_lookup {ins : Instruction} (h : t.lookup op = some ins) (bytes : List Byte) :
    decodeWith t (op :: bytes) = parseOperands op ins bytes := by
  simp only [decodeWith, h]

/-- R88: an opcode without an entry is undefined, whatever follows it. -/
theorem decodeWith_of_lookup_none (h : t.lookup op = none) (bytes : List Byte) :
    decodeWith t (op :: bytes) = .error (.undefinedOpcode op) := by
  simp only [decodeWith, h]

variable (rest : List Byte)

/-- R83: byte 1 is the operand. -/
theorem decodeWith_immediate (h : t.lookup op = some ⟨.immediate, .identity, .loadA⟩) (imm8 : Byte) :
    decodeWith t (op :: imm8 :: rest) = .ok (.ldaImm imm8, rest) :=
  decodeWith_of_lookup h _

/-- R84: byte 1 is the zero-page address. -/
theorem decodeWith_zeroPage (h : t.lookup op = some ⟨.zeroPage, .identity, .loadA⟩) (zp8 : Byte) :
    decodeWith t (op :: zp8 :: rest) = .ok (.ldaZp zp8, rest) :=
  decodeWith_of_lookup h _

/-- R84: byte 1 is the zero-page base. -/
theorem decodeWith_zeroPageX (h : t.lookup op = some ⟨.zeroPageX, .identity, .loadA⟩) (base8 : Byte) :
    decodeWith t (op :: base8 :: rest) = .ok (.ldaZpx base8, rest) :=
  decodeWith_of_lookup h _

/-- R85: byte 1 is the low byte of the address and byte 2 its high byte. -/
theorem decodeWith_absolute (h : t.lookup op = some ⟨.absolute, .identity, .loadA⟩) (lo hi : Byte) :
    decodeWith t (op :: lo :: hi :: rest) = .ok (.ldaAbs (joinBytes hi lo), rest) :=
  decodeWith_of_lookup h _

end DecoderByEntry

/-- A table word decodes to what its bytes decode to. -/
theorem decodeTableWord_of_decode {nbits w : Nat} {i : Instr} {rest : List Byte}
    (h : decode (tableWordBytes nbits w) = .ok (i, rest)) : decodeTableWord nbits w = some i := by
  simp only [decodeTableWord, h]

end Sys2Proof

namespace Sys2Proof.Machine

/-! ### The addresses of the operand halves -/

/-- A zero-page address is in page 0 (R84). -/
theorem zeroPageAddr_toNat_lt (b : Byte) : (zeroPageAddr b).toNat < 256 := by
  rw [zeroPageAddr_toNat]
  exact b.isLt

/-- R107: an indexed zero-page mode reads, with memory as it was, at the 8-bit sum, which never carries into page 1. -/
theorem operandIndexed_reads_page_zero (base index : Byte) (s : State) :
    ∃ (ea : Addr) (t : State), ea.toNat = (base.toNat + index.toNat) % 256 ∧ ea.toNat < 256 ∧ t.mem = s.mem ∧
      operandIndexed base index s = readByte ea t :=
  ⟨indexedAddr base index, s.charge Config.indexAddCost, indexedAddr_toNat base index, zeroPageAddr_toNat_lt _, rfl, rfl⟩

/-! ### The statements -/

/-- Settles O14; the joined address is the sum of R85 as a number. -/
theorem decodeAssemblesOperands : Obligations.DecodeAssemblesOperands := by
  refine fun t op rest => ⟨fun imm8 h => decodeWith_immediate rest h imm8, fun lo hi h => ?_⟩
  rw [← joinBytes_eq_ofNat]
  exact decodeWith_absolute rest h lo hi

/-- Settles O15: each word is decoded by the rule of its opcode's entry in the default table. -/
theorem specWordsDecode : Obligations.SpecWordsDecode := by
  have ldaAbs : decode [0xAD, 0x34, 0x12] = .ok (.ldaAbs 0x1234, []) := decodeWith_absolute [] rfl 0x34 0x12
  have word : tableWordBytes 24 0x1234AD = [0xAD, 0x34, 0x12] := by decide
  exact ⟨decodeWith_immediate [] rfl 0x84, decodeWith_zeroPage [] rfl 0x42, decodeWith_zeroPageX [] rfl 0x80, ldaAbs,
    decodeWith_of_lookup_none rfl [0x00], decodeTableWord_of_decode (word ▸ ldaAbs)⟩

/-- Settles O18: Zero Page,X and Zero Page,Y are the one indexed mode with X and with Y as index. -/
theorem zeroPageAddressesStayInPageZero : Obligations.ZeroPageAddressesStayInPageZero := fun base _ s =>
  ⟨⟨zeroPageAddr base, zeroPageAddr_toNat base, zeroPageAddr_toNat_lt base, rfl⟩,
    operandIndexed_reads_page_zero base s.x s, operandIndexed_reads_page_zero base s.y s, rfl⟩

end Sys2Proof.Machine
end

section
/-! PROOF. The resolvers that read no data, the step of an entry whose resolver completes, and the statements of
40_addressing_modes.md. -/

namespace Sys2Proof.Machine

/-! ### The resolvers that read no data -/

/-- R101: the operand is the byte at PC, and the fetch is all the resolver does. -/
theorem resolveImmediate_done {s : State} {v : Byte} (h : s.mem.get s.pc = some v) :
    resolveImmediate s = .done v (s.advancePc.charge 1) := by
  rw [resolveImmediate, fetchByte_done h, Access.bind_done, operandImmediate]

/-- R101: where the byte at PC is out of bounds the resolver raises at PC. -/
theorem resolveImmediate_abort {s : State} (h : s.mem.get s.pc = none) :
    resolveImmediate s = .abort (.addressOutOfBounds s.pc s.mem.size (s.setRun .idle)) := by
  rw [resolveImmediate, fetchByte_abort h, Access.bind_abort]

/-- R106: the operand is A, in the state as it was. -/
theorem resolve_accumulator (s : State) : resolve .accumulator s = .done s.a s := rfl

/-! ### The step of an entry whose resolver completes -/

/-- LoadA in the words of R121: Z and N as comparisons of the value. -/
theorem applyLoadA_eq_loaded (v : Byte) (s : State) : applyLoadA v s = s.loaded v := by
  simp only [applyLoadA, setZN, isZero_eq, isNegative_eq]
  rfl

/-- R135: an entry whose resolver completes loads its transformed operand into the state the resolver leaves. -/
theorem step_of_entry_done {s t : State} {op v : Byte} {ins : Instruction} (h : s.mem.get s.pc = some op)
    (hl : s.itable.lookup op = some ins) (hr : resolve ins.resolver s.afterOpcode = .done v t) :
    step s = .next (t.loaded (transformByte ins.transform v)) := by
  rw [step_of_entry h hl, execInstr, hr, adapt_done, applyLoadA_eq_loaded]

/-! ### The statements -/

/-- Settles O19: the two outcomes of the Immediate resolver, the one of the Accumulator resolver, and the step of an entry on it,
which takes its operand from A and so ends right after the opcode byte. -/
theorem immediateAndAccumulatorResolvers : Obligations.ImmediateAndAccumulatorResolvers := fun s =>
  ⟨fun _ hv => resolveImmediate_done hv, fun hout => ⟨_, resolveImmediate_abort hout⟩, resolve_accumulator s,
    fun _ hop hentry => step_of_entry_done hop hentry (resolve_accumulator s.afterOpcode)⟩

end Sys2Proof.Machine
end

section
/-! PROOF. Z and N of a loaded value, what a completed instruction, step and host request leave unchanged, and the statements of
41_effects_and_flags.md. -/

namespace Sys2Proof.Machine

/-! ### Zero and Negative of a value -/

section ZeroAndNegative

variable {v : Byte}

/-- R122: Z is set for 0x00 alone. -/
theorem isZero_iff : isZero v = true ↔ v = 0x00 := beq_iff_eq

/-- R122: N is set from 0x80 up. -/
theorem isNegative_iff : isNegative v = true ↔ 128 ≤ v.toNat := by
  rw [isNegative_eq, decide_eq_true_iff]

/-- R122: no value is both, for 0x00 is below 0x80. -/
theorem not_isZero_and_isNegative : ¬ (isZero v = true ∧ isNegative v = true) := by
  rintro ⟨hz, hn⟩
  rw [isZero_iff.mp hz] at hn
  exact absurd hn (by decide)

end ZeroAndNegative

/-! ### The five inert flags -/

/-- `g` differs from `f` at most in Zero and Negative: Carry, InterruptDisable, Decimal, Break and Overflow are as in `f`. -/
def Flags.AgreeBeyondZN (f g : Flags) : Prop := g = { f with zero := g.zero, negative := g.negative }

theorem Flags.AgreeBeyondZN.refl (f : Flags) : f.AgreeBeyondZN f := rfl

theorem Flags.AgreeBeyondZN.trans {f g h : Flags} (hfg : f.AgreeBeyondZN g) (hgh : g.AgreeBeyondZN h) : f.AgreeBeyondZN h := by
  unfold AgreeBeyondZN at hfg hgh ⊢
  rw [hgh, hfg]

/-! ### What an instruction and a step leave unchanged -/

section Frames

variable {s t : State}

/-- An instruction that completes has charged the cycles of its operand half and loaded a byte, and nothing else. -/
theorem exec_eq_next {i : Instr} (h : exec i s = .next t) : ∃ v c, t = applyLoadA v (s.charge c) := by
  cases i with
  | ldaImm imm8 =>
    cases h
    exact ⟨imm8, 0, rfl⟩
  | ldaZp zp8 | ldaAbs abs16 =>
    obtain ⟨v, _, hr, rfl⟩ := adapt_eq_next h
    obtain ⟨-, rfl⟩ := readByte_eq_done hr
    exact ⟨v, 1, rfl⟩
  | ldaZpx base8 =>
    obtain ⟨v, _, hr, rfl⟩ := adapt_eq_next h
    obtain ⟨-, rfl⟩ := readByte_eq_done hr
    exact ⟨v, 2, rfl⟩

/-- A completed step changes at most A, PC, cycles, Zero, Negative and the reports. -/
theorem step_eq_next_frame (h : step s = .next t) :
    t = { s with
      a := t.a, pc := t.pc, cycles := t.cycles, diag := t.diag
      flags := { s.flags with zero := t.flags.zero, negative := t.flags.negative } } := by
  obtain ⟨op, -, ⟨-, rfl⟩ | ⟨ins, v, u, -, hr, rfl⟩⟩ := step_eq_next h
  · rfl
  · obtain rfl := resolve_eq_done hr
    rfl

/-- A completed step appends the report of an undefined opcode, or none (D12). -/
theorem diag_of_step_eq_next (h : step s = .next t) : ∃ more, t.diag = s.diag ++ more ∧ more.length ≤ 1 := by
  obtain ⟨op, -, ⟨-, rfl⟩ | ⟨ins, v, u, -, hr, rfl⟩⟩ := step_eq_next h
  · exact ⟨[⟨op, s.pc⟩], rfl, Nat.le_refl 1⟩
  · obtain rfl := resolve_eq_done hr
    exact ⟨[], (List.append_nil _).symm, Nat.zero_le 1⟩

/-- A completed step writes none of the five inert flags. -/
theorem flags_of_step_eq_next (h : step s = .next t) : s.flags.AgreeBeyondZN t.flags :=
  congrArg State.flags (step_eq_next_frame h)

/-- An aborted step changes PC, cycles and the run state alone (R182; D9, D10). -/
theorem left_of_step_eq_fault {left : State} {addr : Addr} {size : Nat} (h : step s = .fault (.addressOutOfBounds addr size left)) :
    left = { s with pc := left.pc, cycles := left.cycles, run := .idle } := by
  obtain ⟨_, _, _, -, -, he⟩ := step_eq_fault_frame h
  cases he
  rfl

end Frames

/-! ### What a host request leaves unchanged -/

/-- R124 for a whole call: the loop is made of steps, and no step, completed or aborted, writes an inert flag. -/
theorem flags_of_execute (budget : Nat) (s : State) : s.flags.AgreeBeyondZN (execute budget s).2.flags :=
  runLoop_induction (P := fun t => s.flags.AgreeBeyondZN t.flags)
    (fun _ _ hs h => hs.trans (flags_of_step_eq_next h))
    (fun _ _ _ _ hs h => by rw [left_of_step_eq_fault h]; exact hs)
    Config.budgetBasis s.cycles budget budget (s.setRun .running) (.refl s.flags)

/-- A request that is served has the state and the answer of `serve` (R167). -/
theorem hostCall_eq_some {r : HostRequest} {s t : State} {answer : HostAnswer} (h : hostCall r s = some (t, answer)) :
    serve r s = (t, answer) := by
  unfold hostCall at h
  split at h
  · exact Option.some.inj h
  · cases h

/-- R124: of the host's requests only `reset()` writes an inert flag. -/
theorem flags_of_hostCall {r : HostRequest} {s t : State} {answer : HostAnswer} (hr : r ≠ .reset)
    (h : hostCall r s = some (t, answer)) : s.flags.AgreeBeyondZN t.flags := by
  have hs := hostCall_eq_some h
  cases r with
  | reset => exact absurd rfl hr
  | execute budget =>
    cases hs
    exact flags_of_execute budget s
  | inspect what =>
    cases hs
    exact .refl s.flags

/-! ### The statements -/

/-- Settles O16: Z and N of the value, and the five flags SetZN passes through. -/
theorem zeroAndNegativeFollowTheValue : Obligations.ZeroAndNegativeFollowTheValue := fun v f =>
  ⟨isZero_iff, isNegative_iff, not_isZero_and_isNegative, setZN_carry v f, setZN_interruptDisable v f, setZN_decimal v f,
    setZN_brk v f, setZN_overflow v f⟩

/-- Settles O17, by the rule that puts LoadA in the words of R121. -/
theorem loadEffectIsAccumulatorZeroNegative : Obligations.LoadEffectIsAccumulatorZeroNegative := applyLoadA_eq_loaded

/-- Settles O26: all four instructions end in the one load, after charging cycles. -/
theorem ldaFrame : Obligations.LdaFrame := by
  intro i s t h
  obtain ⟨v, c, rfl⟩ := exec_eq_next h
  exact ⟨rfl, rfl, rfl, rfl, rfl, rfl, rfl, rfl, rfl, rfl, rfl, rfl, isZero_iff, isNegative_iff, fun _ => rfl⟩

/-- Settles O39, from the frames of a completed step, an aborted step and a host request. -/
theorem stepLeavesInertStateAlone : Obligations.StepLeavesInertStateAlone :=
  ⟨fun _ _ h => ⟨step_eq_next_frame h, diag_of_step_eq_next h⟩, fun _ _ _ _ h => left_of_step_eq_fault h,
    fun _ _ _ _ hr h => flags_of_hostCall hr h, fun _ => rfl⟩

end Sys2Proof.Machine
end

section
/-! PROOF. The step beside the spec's `Step()`, its progress, the loop under a budget basis, host requests, and the
statements of 43_dispatch_and_execute.md. -/

namespace Sys2Proof.Machine

/-! ### The step beside the spec's -/

section StepAndPseudocode

variable {s t : State}

/-- R158: fetching, decoding and dispatching is running the whole adapter after the opcode byte, as each does the same where that byte
is out of bounds, where it has no entry, and where it has one. -/
theorem step_eq_stepByPseudocode (s : State) : step s = stepByPseudocode s := by
  cases hg : s.mem.get s.pc with
  | none => simp only [step_of_abort (fetchInstr_abort hg), stepByPseudocode, fetchByte_abort hg]
  | some op =>
    cases hl : s.itable.lookup op with
    | none => simp only [step_of_miss (fetchInstr_miss hg hl), stepByPseudocode, fetchByte_done hg, hl]
    | some ins => simp only [step_of_entry hg hl, stepByPseudocode, fetchByte_done hg, hl]

/-- Cycles after a completed step (R31): the opcode fetch, and the cost of the entry's mode if there is an entry. -/
theorem cycles_of_step_eq_next (h : step s = .next t) : ∃ op, s.mem.get s.pc = some op ∧
    ((s.itable.lookup op = none ∧ t.cycles = s.cycles + 1) ∨
      ∃ ins, s.itable.lookup op = some ins ∧ t.cycles = s.cycles + 1 + resolverCost ins.resolver) := by
  obtain ⟨op, hg, ⟨hl, rfl⟩ | ⟨ins, v, u, hl, hr, rfl⟩⟩ := step_eq_next h
  · exact ⟨op, hg, .inl ⟨hl, rfl⟩⟩
  · obtain rfl := resolve_eq_done hr
    exact ⟨op, hg, .inr ⟨ins, hl, rfl⟩⟩

/-- R158: a completed step raises cycles. -/
theorem cycles_lt_of_step_eq_next (h : step s = .next t) : s.cycles < t.cycles := by
  obtain ⟨_, -, ⟨-, hc⟩ | ⟨_, -, hc⟩⟩ := cycles_of_step_eq_next h <;> omega

/-- R80: no mode has more than two stream bytes. -/
theorem streamBytes_le_two (r : Resolver) : r.streamBytes ≤ 2 := by
  cases r <;> decide

/-- R158: a completed step moves PC by 1 to 3 bytes, modulo 65536. -/
theorem pc_moves_of_step_eq_next (h : step s = .next t) :
    ∃ n, 1 ≤ n ∧ n ≤ 3 ∧ t.pc.toNat = (s.pc.toNat + n) % 65536 := by
  obtain ⟨_, -, ⟨-, hpc⟩ | ⟨ins, -, hpc⟩⟩ := pc_of_step_eq_next h
  · exact ⟨1, by omega, by omega, hpc ▸ pc_add_toNat s.pc 1⟩
  · have := streamBytes_le_two ins.resolver
    exact ⟨ins.resolver.streamBytes + 1, by omega, by omega, hpc ▸ pc_add_toNat s.pc _⟩

/-- R135: an entry whose resolver raises faults just so, and neither its transformation nor LoadA runs. -/
theorem step_of_entry_abort {op : Byte} {ins : Instruction} {e : Fault} (h : s.mem.get s.pc = some op)
    (hl : s.itable.lookup op = some ins) (hr : resolve ins.resolver s.afterOpcode = .abort e) : step s = .fault e := by
  rw [step_of_entry h hl, execInstr, hr, adapt_abort]

end StepAndPseudocode

/-! ### The loop under a budget basis -/

/-- The loop sees its basis and its start only through the cycles they count as consumed (R164). -/
theorem runLoop_eq_of_consumed_eq {basis basis' : BudgetBasis} {start start' : Nat}
    (hc : ∀ s, consumed basis start s = consumed basis' start' s) (budget fuel : Nat) (s : State) :
    runLoop basis start budget fuel s = runLoop basis' start' budget fuel s := by
  induction fuel generalizing s with
  | zero => rfl
  | succ n ih => simp only [runLoop, hc, ih]

/-- R164: a call that starts at counter 0 has consumed the whole counter. -/
theorem consumed_sinceReset_eq_perCall_zero (start : Nat) (s : State) :
    consumed .sinceReset start s = consumed .perCall 0 s := rfl

/-! ### Requests -/

/-- An Idle core set to Idle is as it was. -/
theorem setRun_idle_of_idle {s : State} (h : s.run = .idle) : s.setRun .idle = s := by
  rw [← h]
  rfl

/-- R165: `execute(0)` enters and leaves the loop without a step, and so changes no Idle core. -/
theorem execute_zero {s : State} (h : s.run = .idle) : execute 0 s = (.ok, s) :=
  congrArg (CallResult.ok, ·) (setRun_idle_of_idle h)

/-- R167, D18: a Running core has no move for a request. -/
theorem hostCall_of_running {s : State} (h : s.run = .running) (r : HostRequest) : hostCall r s = none := by
  simp only [hostCall, h]

/-- R167: an Idle core serves every request. -/
theorem hostCall_of_idle {s : State} (h : s.run = .idle) (r : HostRequest) : hostCall r s = some (serve r s) := by
  simp only [hostCall, h]

/-- R32: a request served by an Idle core leaves it Idle; `execute` sets the run state on return, the others keep it. -/
theorem run_of_serve {s : State} (h : s.run = .idle) (r : HostRequest) : (serve r s).1.run = .idle := by
  cases r with
  | reset => exact h
  | execute budget => rfl
  | inspect what => exact h

/-! ### The statements -/

/-- Settles O28: the equality with the pseudocode, no refusal, and the progress of cycles and PC. -/
theorem stepIsTheSpecsStep : Obligations.StepIsTheSpecsStep :=
  ⟨step_eq_stepByPseudocode, fun _ _ => step_ne_refused,
    fun _ _ h => ⟨cycles_lt_of_step_eq_next h, pc_moves_of_step_eq_next h⟩⟩

/-- Settles O10, by induction from the last registration (R155, "last write wins"): it answers its own opcode and leaves the others to
the registrations before it. -/
theorem lookupAnswersLastRegistration : Obligations.LookupAnswersLastRegistration := by
  intro regs op
  induction regs using List.reverseRecOn with
  | nil => rfl
  | append_singleton regs e ih =>
    obtain ⟨k, ins⟩ := e
    rw [List.foldl_concat, ITable.lookup_register, ih, List.reverse_concat, List.find?_cons]
    by_cases hk : k = op
    · simp [hk]
    · simp [hk, beq_eq_false_iff_ne.mpr hk]

/-- Settles O50: from counter 0 both bases count the same cycles as consumed, so the two loops are one. -/
theorem budgetBasesAgreeOnTheFirstCall : Obligations.BudgetBasesAgreeOnTheFirstCall := by
  intro budget s h
  simp only [executeWith, h, runLoop_eq_of_consumed_eq (consumed_sinceReset_eq_perCall_zero 0)]

/-- Settles O55: the entry's adapter, whose transformation as table data is `f` itself. -/
theorem stepRunsAnyTransformation : Obligations.StepRunsAnyTransformation := by
  refine fun f r s op h hl => ⟨fun v t hr => ?_, fun e hr => step_of_entry_abort h hl hr⟩
  rw [step_of_entry_done h hl hr, transformByte_ofFunction]

/-- Settles O3: `execute(0)` leaves what `reset()` made, which is Idle as the core was. -/
theorem executeZeroRunsNoStep : Obligations.ExecuteZeroRunsNoStep := by
  refine ⟨fun s h => execute_zero h, fun s h => ?_⟩
  have idle : (hostReset s).run = .idle := h
  rw [execute_zero idle]
  exact ⟨rfl, rfl, rfl, rfl, rfl, rfl, rfl, rfl⟩

/-- Settles O5, from the two rules of a request and the run state a served one leaves. -/
theorem requestsAreServedWhenIdleOnly : Obligations.RequestsAreServedWhenIdleOnly := fun r _ =>
  ⟨fun h => hostCall_of_running h r, fun h => ⟨_, _, hostCall_of_idle h r, run_of_serve h r⟩⟩

end Sys2Proof.Machine
end

section
/-! PROOF. The elements no step reads, a call whose first step aborts, and the statements of 60_exceptions.md. -/

namespace Sys2Proof.Machine

/-! ### The elements no step reads -/

/-- The state elements no step reads (R187; D12, D20): flags, SP, run state and reports. -/
structure Unread where
  flags : Flags
  sp : Addr
  run : RunState
  diag : List Report

/-- `s` with the elements no step reads replaced by those of `w`. -/
def State.withUnread (s : State) (w : Unread) : State :=
  { s with flags := w.flags, sp := w.sp, run := w.run, diag := w.diag }

/-- A fault with those elements replaced in the state the abort leaves, whose run state is Idle whatever it was (D10). -/
def Fault.withUnread (w : Unread) : Fault → Fault
  | .addressOutOfBounds addr size left =>
    .addressOutOfBounds addr size { left with flags := w.flags, sp := w.sp, diag := w.diag }

/-- An access with those elements replaced in the state it ends in. -/
def Access.withUnread {α : Type} (w : Unread) : Access α → Access α
  | .done v s => .done v (s.withUnread w)
  | .abort e => .abort (e.withUnread w)

section NonInterference

variable {s t : State} {w : Unread}

/-- Going on after an access commutes with the replacement where what follows does. -/
theorem Access.bind_withUnread {α β : Type} {acc : Access α} {g : α → State → Access β}
    (hg : ∀ v t, g v (t.withUnread w) = (g v t).withUnread w) : (acc.withUnread w).bind g = (acc.bind g).withUnread w := by
  cases acc with
  | done v t => exact hg v t
  | abort e => rfl

/-- The stream fetch looks at memory and PC alone. -/
theorem fetchByte_withUnread (s : State) (w : Unread) : fetchByte (s.withUnread w) = (fetchByte s).withUnread w := by
  cases hg : s.mem.get s.pc with
  | some b => rw [fetchByte_done hg, fetchByte_done (s := s.withUnread w) hg]; rfl
  | none => rw [fetchByte_abort hg, fetchByte_abort (s := s.withUnread w) hg]; rfl

/-- The data read looks at memory alone. -/
theorem readByte_withUnread (addr : Addr) (s : State) (w : Unread) :
    readByte addr (s.withUnread w) = (readByte addr s).withUnread w := by
  cases hg : s.mem.get addr with
  | some b => rw [readByte_done hg, readByte_done (s := s.withUnread w) hg]; rfl
  | none => rw [readByte_abort hg, readByte_abort (s := s.withUnread w) hg]; rfl

/-- A resolver with one stream byte: the fetch commutes with the replacement, so it is enough that the operand half does. -/
theorem fetchByte_bind_withUnread {half : Byte → State → Access Byte}
    (hhalf : ∀ b t, half b (t.withUnread w) = (half b t).withUnread w) (s : State) :
    (fetchByte (s.withUnread w)).bind half = ((fetchByte s).bind half).withUnread w := by
  rw [fetchByte_withUnread, Access.bind_withUnread hhalf]

/-- A resolver is made of fetches, the index cycle and the data read, so it looks at A, X, Y, PC and memory alone. -/
theorem resolve_withUnread (r : Resolver) (s : State) (w : Unread) :
    resolve r (s.withUnread w) = (resolve r s).withUnread w := by
  cases r with
  | accumulator => rfl
  | immediate => exact fetchByte_bind_withUnread (fun _ _ => rfl) s
  | zeroPage => exact fetchByte_bind_withUnread (fun _ t => readByte_withUnread _ t w) s
  | zeroPageX | zeroPageY => exact fetchByte_bind_withUnread (fun _ t => readByte_withUnread _ (t.charge 1) w) s
  | absolute =>
    exact fetchByte_bind_withUnread
      (fun _ t => fetchByte_bind_withUnread (fun _ u => readByte_withUnread _ u w) t) s

/-- A step that completes does the same with those elements replaced: it appends the same report, or loads the same byte after the same
moves of PC and cycles. -/
theorem step_withUnread_of_next (h : step s = .next t) (w : Unread) :
    (∃ op, t = reportUndefined op s.pc s.afterOpcode ∧
      step (s.withUnread w) = .next (reportUndefined op s.pc (s.withUnread w).afterOpcode)) ∨
    ∃ v pc c, t = applyLoadA v { s with pc := pc, cycles := c } ∧
      step (s.withUnread w) = .next (applyLoadA v { s.withUnread w with pc := pc, cycles := c }) := by
  obtain ⟨op, hg, ⟨hl, rfl⟩ | ⟨ins, v, u, hl, hr, rfl⟩⟩ := step_eq_next h
  · exact .inl ⟨op, rfl, step_of_miss (fetchInstr_miss (s := s.withUnread w) hg hl)⟩
  · have hr' : resolve ins.resolver (s.withUnread w).afterOpcode = .done v (u.withUnread w) :=
      (resolve_withUnread ins.resolver s.afterOpcode w).trans (congrArg (Access.withUnread w) hr)
    obtain rfl := resolve_eq_done hr
    refine .inr ⟨_, _, _, rfl, ?_⟩
    rw [step_of_entry (s := s.withUnread w) hg hl, execInstr, hr', adapt_done]
    rfl

/-- A step that faults does so just the same with those elements replaced, and leaves the same state but for them. -/
theorem step_withUnread_of_fault {e : Fault} (h : step s = .fault e) (w : Unread) :
    step (s.withUnread w) = .fault (e.withUnread w) := by
  rcases step_eq_fault h with ⟨hg, rfl⟩ | ⟨op, ins, hg, hl, hr⟩
  · exact step_of_abort (fetchInstr_abort (s := s.withUnread w) hg)
  · exact step_of_entry_abort (s := s.withUnread w) hg hl
      ((resolve_withUnread ins.resolver s.afterOpcode w).trans (congrArg (Access.withUnread w) hr))

end NonInterference

/-! ### The first step of a call -/

section FirstStep

variable {s : State} {budget : Nat}

/-- R164, D4: on entry to a call nothing is consumed, so a positive budget allows a step. -/
theorem consumed_on_entry_lt (hb : 0 < budget) : consumed Config.budgetBasis s.cycles (s.setRun .running) < budget := by
  have hzero : consumed Config.budgetBasis s.cycles (s.setRun .running) = 0 := Nat.sub_self s.cycles
  rwa [hzero]

/-- R168: a call whose first step faults answers that error. -/
theorem execute_of_fault {addr : Addr} {size : Nat} {left : State} (hb : 0 < budget)
    (h : step (s.setRun .running) = .fault (.addressOutOfBounds addr size left)) :
    execute budget s = (.error addr size, left.setRun .idle) := by
  obtain ⟨fuel, rfl⟩ := Nat.exists_eq_add_one.mpr hb
  simp only [execute, executeWith, runLoop_of_fault fuel (consumed_on_entry_lt hb) h]

/-- R196: a call with budget 1 whose step completes ends with it, as it has run out of iterations. -/
theorem execute_one_of_next {t : State} (h : step (s.setRun .running) = .next t) : execute 1 s = (.ok, t.setRun .idle) := by
  rw [execute, executeWith, runLoop_of_next 0 (consumed_on_entry_lt Nat.one_pos) h, runLoop]

end FirstStep

/-! ### The statements -/

/-- Settles O40: both steps complete, with the same report or the same load, or both fault alike. -/
theorem flagsStackPointerAndReportsInfluenceNothing : Obligations.FlagsStackPointerAndReportsInfluenceNothing := by
  refine ⟨fun s f p r d => ?_, fun _ => ⟨rfl, rfl⟩⟩
  have replaced : { s with flags := f, sp := p, run := r, diag := d } = s.withUnread ⟨f, p, r, d⟩ := rfl
  rw [replaced]
  cases hs : step s with
  | refused e => exact absurd hs step_ne_refused
  | fault e =>
    obtain ⟨addr, size, left⟩ := e
    rw [step_withUnread_of_fault hs]
    exact ⟨rfl, rfl, rfl⟩
  | next t =>
    obtain ⟨op, rfl, hs'⟩ | ⟨v, pc, c, rfl, hs'⟩ := step_withUnread_of_next hs ⟨f, p, r, d⟩
    · rw [hs']
      exact ⟨rfl, rfl, rfl, rfl, rfl, rfl, rfl, rfl, rfl, ⟨[⟨op, s.pc⟩], rfl, rfl⟩, rfl, .inr ⟨rfl, rfl⟩⟩
    · rw [hs']
      exact ⟨rfl, rfl, rfl, rfl, rfl, rfl, rfl, rfl, rfl, ⟨[], by simp, by simp [State.withUnread]⟩, rfl, .inl ⟨rfl, rfl⟩⟩

/-- Settles O51, by what the one step ends in. -/
theorem budgetOneRunsOneStep : Obligations.BudgetOneRunsOneStep := by
  intro s
  have entered : { s with run := .running } = s.setRun .running := rfl
  rw [entered]
  cases hs : step (s.setRun .running) with
  | next t => exact execute_one_of_next hs
  | fault e =>
    obtain ⟨addr, size, left⟩ := e
    exact execute_of_fault Nat.one_pos hs
  | refused r => exact absurd hs step_ne_refused

/-- Settles O52: the opcode fetch of the first step raises at PC, and the core set back to Idle is as it was. -/
theorem callAtUnreadablePcChangesNothing : Obligations.CallAtUnreadablePcChangesNothing := by
  intro budget s hidle hout hb
  have hfault := step_of_abort (fetchInstr_abort (s := s.setRun .running) hout)
  rw [execute_of_fault hb hfault]
  exact congrArg (CallResult.error s.pc s.mem.size, ·) (setRun_idle_of_idle hidle)

end Sys2Proof.Machine
end

section
/-! PROOF. Cleared memory is a run of undefined opcodes: the step over a zero byte, the loop along a chain of one-cycle steps, and
the statement of 70_reset_and_hazards.md. -/

namespace Sys2Proof.Machine

/-! ### A run of misses -/

/-- R161: the state after `n` UndefinedOpcode steps over bytes that all hold `op`. -/
def State.afterMisses (s : State) (op : Byte) (n : Nat) : State :=
  { s with
    pc := s.pc + BitVec.ofNat 16 n
    cycles := s.cycles + n
    diag := s.diag ++ (List.range n).map fun k => ⟨op, s.pc + BitVec.ofNat 16 k⟩ }

theorem State.afterMisses_zero (s : State) (op : Byte) : s.afterMisses op 0 = s := by
  simp [State.afterMisses]

/-- One more miss: the report names the PC reached so far, and the opcode byte adds one to PC and to the counter (R159, R184). -/
theorem State.afterMisses_succ (s : State) (op : Byte) (n : Nat) :
    s.afterMisses op (n + 1) = reportUndefined op (s.afterMisses op n).pc (s.afterMisses op n).afterOpcode := by
  have hpc : s.pc + BitVec.ofNat 16 (n + 1) = s.pc + BitVec.ofNat 16 n + 1 := by
    rw [← pc_succ_add, add_right_comm]
  simp [State.afterMisses, reportUndefined, State.addReport, State.advancePc, State.charge, hpc, List.range_succ, Nat.add_assoc]

/-- R161: where every byte of memory holds `op` and `op` has no table entry, each step is the next miss. -/
theorem step_afterMisses {s : State} {op : Byte} (hmem : ∀ addr, s.mem.get addr = some op) (hl : s.itable.lookup op = none)
    (n : Nat) : step (s.afterMisses op n) = .next (s.afterMisses op (n + 1)) := by
  rw [State.afterMisses_succ]
  exact step_of_miss (fetchInstr_miss (hmem _) hl)

/-! ### The loop along a chain of one-cycle steps -/

/-- R162: along states that each step to the next and of which the `k`-th has consumed `k` cycles, the loop takes one step per
unit of what is left of the budget. -/
theorem runLoop_of_chain {basis : BudgetBasis} {start : Nat} {f : Nat → State} (hstep : ∀ k, step (f k) = .next (f (k + 1)))
    (hcons : ∀ k, consumed basis start (f k) = k) (fuel k : Nat) :
    runLoop basis start (k + fuel) fuel (f k) = (.ok, f (k + fuel)) := by
  induction fuel generalizing k with
  | zero => rfl
  | succ n ih =>
    have hlt : consumed basis start (f k) < k + (n + 1) := by rw [hcons]; omega
    rw [runLoop_of_next n hlt (hstep k), show k + (n + 1) = k + 1 + n by omega]
    exact ih (k + 1)

/-- R161, R162, D4: `execute(n)` over bytes that all miss is `n` misses, as each consumes one cycle. -/
theorem execute_of_misses {s : State} {op : Byte} (hidle : s.run = .idle) (hmem : ∀ addr, s.mem.get addr = some op)
    (hl : s.itable.lookup op = none) (n : Nat) : execute n s = (.ok, s.afterMisses op n) := by
  have hstep := step_afterMisses (s := s.setRun .running) hmem hl
  have hcons : ∀ k, consumed .perCall s.cycles ((s.setRun .running).afterMisses op k) = k := Nat.add_sub_cancel_left s.cycles
  have hloop := runLoop_of_chain hstep hcons n 0
  rw [State.afterMisses_zero, Nat.zero_add] at hloop
  rw [execute, executeWith, Config.budgetBasis, hloop]
  exact congrArg (CallResult.ok, ·) (setRun_idle_of_idle (s := s.afterMisses op n) hidle)

/-! ### Cleared memory -/

/-- R210, D7: a cleared memory answers CLEAR_VALUE at every address in bounds. -/
theorem Memory.get_cleared {m : Memory} {addr : Addr} (h : addr.toNat < m.size) :
    m.cleared.get addr = some Config.clearValue :=
  if_pos h

/-- D1, D2: CLEAR_VALUE is none of the opcode bytes. -/
theorem defaultTable_lookup_clearValue : defaultTable.lookup Config.clearValue = none := by decide

/-! ### The statement -/

/-- Settles O53: after `reset()` every byte of the address space is 0x00, which has no entry, so the call is `n` misses. -/
theorem clearedMemoryRunsUndefinedOpcodes : Obligations.ClearedMemoryRunsUndefinedOpcodes := by
  intro s n hidle hsize
  have hmem : ∀ addr, (hostReset s).mem.get addr = some Config.clearValue := fun addr =>
    Memory.get_cleared (hsize ▸ addr.isLt)
  have hrun : (hostReset s).run = .idle := hidle
  rw [execute_of_misses hrun hmem defaultTable_lookup_clearValue n]
  simp [State.afterMisses, hostReset, hostNew, Config.resetPC, Config.clearValue]

end Sys2Proof.Machine
end

section
/-! PROOF. The decoder as the inverse of the encoder: an instruction as its mode and operand bytes, the fixed table's lookups, and
the remaining statements of 30_encoding.md. -/

namespace Sys2Proof

/-! ### An instruction as its mode and operand bytes -/

/-- The addressing mode of an instruction (R137 to R140). -/
def Instr.mode : Instr → Resolver
  | .ldaImm _ => .immediate
  | .ldaZp _ => .zeroPage
  | .ldaZpx _ => .zeroPageX
  | .ldaAbs _ => .absolute

/-- The bytes after the opcode byte (R81): one byte, or the low and the high byte of an address. -/
def Instr.operandBytes : Instr → List Byte
  | .ldaImm imm8 => [imm8]
  | .ldaZp zp8 => [zp8]
  | .ldaZpx base8 => [base8]
  | .ldaAbs abs16 => [lowByte abs16, highByte abs16]

/-- The table entry of an instruction: its mode's identity load (R87, R136). -/
def Instr.entry (i : Instr) : Instruction := ⟨i.mode, .identity, .loadA⟩

/-- The opcode byte that the parameters give an instruction (R87). -/
def Opcodes.opcodeOf (o : Opcodes) : Instr → Byte
  | .ldaImm _ => o.ldaImm
  | .ldaZp _ => o.ldaZp
  | .ldaZpx _ => o.ldaZpx
  | .ldaAbs _ => o.ldaAbs

/-- R81: an encoding is the opcode byte and the operand bytes. -/
theorem encodeWith_eq_cons (o : Opcodes) (i : Instr) : encodeWith o i = o.opcodeOf i :: i.operandBytes := by
  cases i <;> rfl

/-- R80: an instruction has as many operand bytes as its mode takes from the stream. -/
theorem Instr.length_operandBytes (i : Instr) : i.operandBytes.length = i.mode.streamBytes := by
  cases i <;> rfl

/-- R86: the length counts the opcode byte and the operand bytes. -/
theorem Instr.length_eq_operandBytes_succ (i : Instr) : i.length = i.operandBytes.length + 1 := by
  cases i <;> rfl

/-! ### What the decoder reads -/

section DecoderInversion

variable {i : Instr} {rest bytes : List Byte} {op : Byte} {t : ITable}

/-- R83 to R85: reading the operand bytes of an instruction in its own mode gives the instruction. -/
theorem parseMode_operandBytes (op : Byte) (i : Instr) (rest : List Byte) :
    parseMode op i.mode (i.operandBytes ++ rest) = .ok (i, rest) := by
  cases i with
  | ldaImm imm8 | ldaZp zp8 | ldaZpx base8 => rfl
  | ldaAbs abs16 =>
    show Except.ok (Instr.ldaAbs (joinBytes (highByte abs16) (lowByte abs16)), rest) = _
    rw [joinBytes_high_low]

/-- Bytes read in a mode as an instruction are that instruction's operand bytes, and the mode is its own. -/
theorem parseMode_eq_ok {mode : Resolver} (h : parseMode op mode bytes = .ok (i, rest)) :
    mode = i.mode ∧ bytes = i.operandBytes ++ rest := by
  cases mode with
  | zeroPageY | accumulator => cases h
  | immediate | zeroPage | zeroPageX =>
    cases bytes with
    | nil => cases h
    | cons b bs => cases h; exact ⟨rfl, rfl⟩
  | absolute =>
    match bytes, h with
    | lo :: hi :: bs, h =>
      cases h
      refine ⟨rfl, ?_⟩
      show _ = lowByte (joinBytes hi lo) :: highByte (joinBytes hi lo) :: rest
      rw [lowByte_joinBytes, highByte_joinBytes]

/-- R82: a byte string decodes to an instruction exactly when it is an opcode byte with that instruction's entry, then its operand
bytes. -/
theorem decodeWith_eq_ok_iff :
    decodeWith t bytes = .ok (i, rest) ↔ ∃ op, t.lookup op = some i.entry ∧ bytes = op :: (i.operandBytes ++ rest) := by
  constructor
  · intro h
    cases bytes with
    | nil => cases h
    | cons op bs =>
      cases hl : t.lookup op with
      | none => rw [decodeWith_of_lookup_none hl] at h; cases h
      | some ins =>
        rw [decodeWith_of_lookup hl] at h
        obtain ⟨mode, f, applier⟩ := ins
        cases applier
        cases f with
        | table values => cases h
        | identity =>
          obtain ⟨rfl, rfl⟩ := parseMode_eq_ok h
          exact ⟨op, hl, rfl⟩
  · rintro ⟨op, hl, rfl⟩
    rw [decodeWith_of_lookup hl]
    exact parseMode_operandBytes op i rest

end DecoderInversion

/-! ### The fixed table -/

/-- R156, R155: the four registrations answer their opcodes, the later before the earlier where two opcodes agree. -/
theorem buildTable_lookup (o : Opcodes) (op : Byte) : (buildTable o).lookup op =
    if o.ldaAbs = op then some ⟨.absolute, .identity, .loadA⟩
    else if o.ldaZpx = op then some ⟨.zeroPageX, .identity, .loadA⟩
    else if o.ldaZp = op then some ⟨.zeroPage, .identity, .loadA⟩
    else if o.ldaImm = op then some ⟨.immediate, .identity, .loadA⟩
    else none := by
  simp only [buildTable, ITable.lookup_register, ITable.lookup]

/-- Only an instruction's own opcode has its entry, whatever the parameters are. -/
theorem eq_opcodeOf_of_buildTable_lookup {o : Opcodes} {op : Byte} {i : Instr}
    (h : (buildTable o).lookup op = some i.entry) : op = o.opcodeOf i := by
  rw [buildTable_lookup] at h
  split_ifs at h with hAbs hZpx hZp hImm
  · cases i <;> cases h
    exact hAbs.symm
  · cases i <;> cases h
    exact hZpx.symm
  · cases i <;> cases h
    exact hZp.symm
  · cases i <;> cases h
    exact hImm.symm

/-- R87: pairwise distinct, as six inequalities. -/
theorem Opcodes.distinct_iff {o : Opcodes} : o.distinct = true ↔
    o.ldaImm ≠ o.ldaZp ∧ o.ldaImm ≠ o.ldaZpx ∧ o.ldaImm ≠ o.ldaAbs ∧
      o.ldaZp ≠ o.ldaZpx ∧ o.ldaZp ≠ o.ldaAbs ∧ o.ldaZpx ≠ o.ldaAbs := by
  simp only [Opcodes.distinct, Bool.and_eq_true, bne_iff_ne, and_assoc]

/-- R87: with pairwise distinct parameters no registration overwrites another, so their order makes no difference. -/
theorem buildTable_lookup_of_distinct {o : Opcodes} (h : o.distinct = true) (op : Byte) : (buildTable o).lookup op =
    if op = o.ldaImm then some ⟨.immediate, .identity, .loadA⟩
    else if op = o.ldaZp then some ⟨.zeroPage, .identity, .loadA⟩
    else if op = o.ldaZpx then some ⟨.zeroPageX, .identity, .loadA⟩
    else if op = o.ldaAbs then some ⟨.absolute, .identity, .loadA⟩
    else none := by
  have hne := Opcodes.distinct_iff.mp h
  rw [buildTable_lookup]
  grind

/-- R87: with pairwise distinct parameters every instruction's opcode has its entry. -/
theorem buildTable_lookup_opcodeOf {o : Opcodes} (h : o.distinct = true) (i : Instr) :
    (buildTable o).lookup (o.opcodeOf i) = some i.entry := by
  obtain ⟨hImmZp, hImmZpx, hImmAbs, hZpZpx, hZpAbs, hZpxAbs⟩ := Opcodes.distinct_iff.mp h
  rw [buildTable_lookup]
  cases i with
  | ldaAbs abs16 => exact if_pos rfl
  | ldaZpx base8 => exact (if_neg hZpxAbs.symm).trans (if_pos rfl)
  | ldaZp zp8 => exact (if_neg hZpAbs.symm).trans ((if_neg hZpZpx.symm).trans (if_pos rfl))
  | ldaImm imm8 =>
    exact (if_neg hImmAbs.symm).trans ((if_neg hImmZpx.symm).trans ((if_neg hImmZp.symm).trans (if_pos rfl)))

/-! ### The statements -/

/-- Settles O12: the opcode byte finds the instruction's entry, and the operand bytes read back as its operand. -/
theorem decodeInvertsEncodeForAnyOpcodes : Obligations.DecodeInvertsEncodeForAnyOpcodes := by
  intro o hdistinct i rest _
  rw [encodeWith_eq_cons]
  exact decodeWith_eq_ok_iff.mpr ⟨_, buildTable_lookup_opcodeOf hdistinct i, rfl⟩

/-- Settles O13: what decodes is an opcode with the instruction's entry and its operand bytes, and only its own opcode has it. -/
theorem decodedBytesAreTheEncoding : Obligations.DecodedBytesAreTheEncoding := by
  intro o bytes rest i h
  obtain ⟨op, hl, rfl⟩ := decodeWith_eq_ok_iff.mp h
  rw [encodeWith_eq_cons, eq_opcodeOf_of_buildTable_lookup hl, List.cons_append]

/-- Settles O11: the default opcode bytes are pairwise distinct. -/
theorem defaultTableHasFourEntries : Obligations.DefaultTableHasFourEntries :=
  buildTable_lookup_of_distinct (o := Config.opcodes) (by decide)

end Sys2Proof
end

section
/-! PROOF. Canonical memory is its content, `MemRead` by address, the invariant through steps and host requests, and the remaining
statements about memory, reset, construction and the invariants. -/

namespace Sys2Proof.Machine

/-! ### Canonical memory is its content -/

section CanonicalMemory

variable {cs : List Host.Cell}

/-- A listed cell is the one found at its address: the order leaves no other cell there. -/
theorem cellAt_of_mem (h : CellsSorted cs) {c : Host.Cell} (hc : c ∈ cs) : cellAt cs c.1 = c.2 := by
  induction cs with
  | nil => cases hc
  | cons d cs ih =>
    obtain ⟨hd, hcs⟩ := List.pairwise_cons.mp h
    rcases List.mem_cons.mp hc with rfl | hc
    · exact if_pos rfl
    · exact (if_neg (hd c hc).ne).trans (ih hcs hc)

/-- An address that does not hold CLEAR_VALUE is listed. -/
theorem mem_of_cellAt_ne {n : Nat} (h : cellAt cs n ≠ Config.clearValue) : (n, cellAt cs n) ∈ cs := by
  induction cs with
  | nil => exact absurd rfl h
  | cons d cs ih =>
    obtain ⟨k, b⟩ := d
    rw [cellAt_cons] at h ⊢
    split_ifs at h ⊢ with hk
    · rw [hk]
      exact List.mem_cons_self ..
    · exact List.mem_cons_of_mem _ (ih h)

/-- Rising addresses are distinct ones. -/
theorem CellsSorted.nodup (h : CellsSorted cs) : cs.Nodup :=
  h.imp fun hlt he => hlt.ne (congrArg Prod.fst he)

/-- Sorted lists with the same cells are the same list. -/
theorem CellsSorted.eq_of_mem_iff {cs' : List Host.Cell} (h : CellsSorted cs) (h' : CellsSorted cs')
    (hmem : ∀ c, c ∈ cs ↔ c ∈ cs') : cs = cs' :=
  ((List.perm_ext_iff_of_nodup h.nodup h'.nodup).mpr hmem).eq_of_pairwise
    (fun _ _ _ _ hlt hgt => absurd hlt hgt.asymm) h h'

/-- What a canonical memory lists: the in-bounds addresses that do not read CLEAR_VALUE, with what they read. -/
theorem Memory.mem_cells_iff {m : Memory} (h : m.wf) (c : Host.Cell) :
    c ∈ m.cells ↔ c.1 < m.size ∧ m.get (BitVec.ofNat 16 c.1) = some c.2 ∧ c.2 ≠ Config.clearValue := by
  obtain ⟨hsize, hsorted, hcells⟩ := h
  have hmax := (memSizeOk_iff.mp hsize).2
  have haddr : c.1 < m.size → (BitVec.ofNat 16 c.1).toNat = c.1 := fun hlt =>
    Nat.mod_eq_of_lt (Nat.lt_of_lt_of_le hlt hmax)
  constructor
  · intro hc
    obtain ⟨hlt, hne⟩ := hcells c hc
    refine ⟨hlt, Memory.get_eq_some.mpr ?_, hne⟩
    rw [haddr hlt]
    exact ⟨hlt, cellAt_of_mem hsorted hc⟩
  · rintro ⟨hlt, hget, hne⟩
    obtain ⟨-, hcell⟩ := Memory.get_eq_some.mp hget
    rw [haddr hlt] at hcell
    have hmem := mem_of_cellAt_ne (hcell.symm ▸ hne)
    rwa [hcell] at hmem

end CanonicalMemory

/-- A memory is its capacity and its cells. -/
theorem Memory.ext {m m' : Memory} (hsize : m.size = m'.size) (hcells : m.cells = m'.cells) : m = m' := by
  cases m
  cases m'
  cases hsize
  cases hcells
  rfl

/-! ### `MemRead` by address -/

/-- R51: a `MemRead` that completes has read the cell and changed nothing. -/
theorem memRead_eq_done {s t : State} {addr : Addr} {b : Byte} (h : memRead addr s = .done b t) :
    t = s ∧ s.mem.get addr = some b := by
  cases hg : s.mem.get addr with
  | some c => rw [memRead_done hg] at h; cases h; exact ⟨rfl, rfl⟩
  | none => rw [memRead_abort hg] at h; cases h

/-- R51: `MemRead` gives a byte below MEM_SIZE and only there. -/
theorem memRead_done_iff {s : State} {addr : Addr} : (∃ b, memRead addr s = .done b s) ↔ addr.toNat < s.mem.size := by
  constructor
  · rintro ⟨b, h⟩
    exact (Memory.get_eq_some.mp (memRead_eq_done h).2).1
  · exact fun h => ⟨_, memRead_done (Memory.get_eq_some.mpr ⟨h, rfl⟩)⟩

/-! ### The invariant -/

section Invariant

variable {s t : State}

/-- The invariant looks at memory, the table, Zero and Negative alone. -/
theorem State.Inv.of_eq (h : s.Inv) (hmem : t.mem = s.mem) (htable : t.itable = s.itable) (hflags : t.flags = s.flags) :
    t.Inv :=
  ⟨hmem ▸ h.memory, htable ▸ h.table, hflags ▸ h.notZeroAndNegative⟩

/-- A completed step keeps the invariant: it reports, or it moves PC and cycles and loads a value, which is never both
zero and negative (R122). -/
theorem State.Inv.of_step_eq_next (h : s.Inv) (hs : step s = .next t) : t.Inv := by
  obtain ⟨op, -, ⟨-, rfl⟩ | ⟨ins, v, u, -, hr, rfl⟩⟩ := step_eq_next hs
  · exact h.of_eq rfl rfl rfl
  · obtain rfl := resolve_eq_done hr
    exact ⟨h.memory, h.table, not_isZero_and_isNegative⟩

/-- What an abort leaves keeps the invariant (D9, D10). -/
theorem State.Inv.of_step_eq_fault {left : State} {addr : Addr} {size : Nat} (h : s.Inv)
    (hs : step s = .fault (.addressOutOfBounds addr size left)) : left.Inv := by
  rw [left_of_step_eq_fault hs]
  exact h.of_eq rfl rfl rfl

/-- A core constructed on a canonical memory meets the invariant (R170). -/
theorem hostNew_inv {m : Memory} (h : m.wf) : (hostNew m).Inv :=
  ⟨h, buildTable_wf _, fun hzn => Bool.false_ne_true hzn.1⟩

/-- `reset()` keeps the invariant: it is construction on the cleared memory (R210). -/
theorem State.Inv.hostReset (h : s.Inv) : (hostReset s).Inv :=
  (hostNew_inv (Memory.cleared_wf h.memory)).of_eq rfl rfl rfl

/-- A whole call keeps the invariant, whether it returns or aborts. -/
theorem State.Inv.execute (h : s.Inv) (budget : Nat) : (execute budget s).2.Inv :=
  (runLoop_induction (fun _ _ hs hnext => hs.of_step_eq_next hnext) (fun _ _ _ _ hs hfault => hs.of_step_eq_fault hfault)
    Config.budgetBasis s.cycles budget budget (s.setRun .running) (h.of_eq rfl rfl rfl)).of_eq rfl rfl rfl

end Invariant

/-! ### The statements -/

/-- Settles O8: both memories list the in-bounds addresses that do not read CLEAR_VALUE, in order. -/
theorem canonicalMemoryIsItsContent : Obligations.CanonicalMemoryIsItsContent := by
  intro m m' h h' hsize hget
  have hmem : ∀ c, c ∈ m.cells ↔ c ∈ m'.cells := fun c => by
    rw [Memory.mem_cells_iff h, Memory.mem_cells_iff h', hsize, hget]
  obtain ⟨-, hsorted, -⟩ := h
  obtain ⟨-, hsorted', -⟩ := h'
  exact Memory.ext hsize (hsorted.eq_of_mem_iff hsorted' hmem)

/-- Settles O54, from the two rules of a `MemRead` that completes; a 16-bit address is below 65536. -/
theorem memReadAnswersBelowMemSizeOnly : Obligations.MemReadAnswersBelowMemSizeOnly := fun addr _ =>
  ⟨memRead_done_iff, fun _ _ h => memRead_eq_done h, fun hfull => memRead_done_iff.mpr (hfull ▸ addr.isLt)⟩

/-- Settles O1: each element of the reset state is its power-up value, and cleared memory lists no cell. -/
theorem resetPowersUpEveryElement : Obligations.ResetPowersUpEveryElement := fun _ hidle =>
  ⟨rfl, rfl, rfl, rfl, rfl, rfl, rfl, hidle, rfl, rfl, rfl, fun _ => rfl⟩

/-- Settles O2: each element of the constructed core, as R170 lists it. -/
theorem constructionKeepsSuppliedMemory : Obligations.ConstructionKeepsSuppliedMemory := fun _ =>
  ⟨rfl, rfl, rfl, rfl, rfl, rfl, rfl, rfl, rfl, rfl, rfl⟩

/-- Settles O42: the reset state is a core constructed on a canonical memory. -/
theorem invariantHoldsAtReset : Obligations.InvariantHoldsAtReset := hostNew_inv State.reset_mem_wf

/-- Settles O43, from what a completed and an aborted step do. -/
theorem everyStepKeepsTheInvariant : Obligations.EveryStepKeepsTheInvariant := fun _ h =>
  ⟨fun _ hs => h.of_step_eq_next hs, fun _ _ _ hs => h.of_step_eq_fault hs⟩

/-- Settles O44, by the kinds of request; `execute` by the loop's induction. -/
theorem everyHostRequestKeepsTheInvariant : Obligations.EveryHostRequestKeepsTheInvariant := by
  refine ⟨fun m hm => hostNew_inv hm, fun r s t answer h hcall => ?_⟩
  have hs := hostCall_eq_some hcall
  cases r with
  | reset => cases hs; exact h.hostReset
  | execute budget => cases hs; exact h.execute budget
  | inspect what => cases hs; exact h

/-- Settles O45: a step changes neither memory nor the table, and the one report it may append is of the byte at PC, which
missed. -/
theorem reportsStayTrue : Obligations.ReportsStayTrue := by
  intro s t htrue hs
  obtain ⟨op, hg, ⟨hl, rfl⟩ | ⟨ins, v, u, -, hr, rfl⟩⟩ := step_eq_next hs
  · intro r hmem
    rcases List.mem_append.mp hmem with hold | hnew
    · exact htrue r hold
    · obtain rfl := List.mem_singleton.mp hnew
      exact ⟨hg, hl⟩
  · obtain rfl := resolve_eq_done hr
    exact htrue

end Sys2Proof.Machine
end

section
/-! PROOF. The resolvers once their stream bytes are readable, instructions and whole steps by the bytes they read, bytes the host
places, and the remaining statements about one step. -/

namespace Sys2Proof.Machine

/-! ### Bytes of the instruction stream consumed -/

/-- The state with `n` bytes of the instruction stream consumed, at one cycle each (R70). -/
def State.afterBytes (s : State) (n : Nat) : State :=
  { s with pc := s.pc + BitVec.ofNat 16 n, cycles := s.cycles + n }

/-- No byte consumed. -/
theorem State.afterBytes_zero (s : State) : s.afterBytes 0 = s := by
  simp [State.afterBytes]

/-- The opcode byte and then `n` bytes are `n + 1` bytes. -/
theorem State.afterOpcode_afterBytes (s : State) (n : Nat) : s.afterOpcode.afterBytes n = s.afterBytes (n + 1) := by
  simp only [State.afterBytes, State.charge_pc, State.advancePc_pc, State.charge_cycles, State.advancePc_cycles, pc_succ_add,
    Nat.add_right_comm _ 1 n]
  rfl

/-! ### Resolvers whose stream bytes are readable -/

section ResolverOperands

variable {s : State} {b : Byte}

/-- R102: after its address byte, Zero Page is the data read. -/
theorem resolve_zeroPage_of_get (h : s.mem.get s.pc = some b) :
    resolve .zeroPage s = readByte (BitVec.ofNat 16 b.toNat) (s.afterBytes 1) := by
  rw [resolve, resolveZeroPage, fetchByte_done h, Access.bind_done, operandZeroPage, zeroPageAddr_eq_ofNat]
  rfl

/-- R107: an indexed mode is the index cycle and the data read at the 8-bit sum. -/
theorem operandIndexed_eq_readByte (base index : Byte) (s : State) :
    operandIndexed base index s = readByte (BitVec.ofNat 16 ((base.toNat + index.toNat) % 256)) (s.charge 1) := by
  rw [operandIndexed, indexedAddr_eq_ofNat, Config.indexAddCost]

/-- R103: after its base byte, Zero Page,X is the index cycle and the data read. -/
theorem resolve_zeroPageX_of_get (h : s.mem.get s.pc = some b) : resolve .zeroPageX s =
    readByte (BitVec.ofNat 16 ((b.toNat + s.x.toNat) % 256)) ((s.afterBytes 1).charge 1) := by
  rw [resolve, resolveZeroPageX, fetchByte_done h, Access.bind_done, operandZeroPageX, operandIndexed_eq_readByte]
  rfl

/-- R104: after its base byte, Zero Page,Y is the index cycle and the data read. -/
theorem resolveZeroPageY_of_get (h : s.mem.get s.pc = some b) : resolveZeroPageY s =
    readByte (BitVec.ofNat 16 ((b.toNat + s.y.toNat) % 256)) ((s.afterBytes 1).charge 1) := by
  rw [resolveZeroPageY, fetchByte_done h, Access.bind_done, operandZeroPageY, operandIndexed_eq_readByte]
  rfl

/-- R105: after its two address bytes, the low one first, Absolute is the data read. -/
theorem resolve_absolute_of_get {hi : Byte} (h : s.mem.get s.pc = some b) (hhi : s.mem.get (s.pc + 1) = some hi) :
    resolve .absolute s = readByte (BitVec.ofNat 16 (hi.toNat * 256 + b.toNat)) (s.afterBytes 2) := by
  have hsecond : fetchByte s.afterOpcode = .done hi (s.afterOpcode.afterBytes 1) := fetchByte_done hhi
  rw [resolve, resolveAbsolute, fetchByte_done h, Access.bind_done, hsecond, Access.bind_done, operandAbsolute,
    joinBytes_eq_ofNat, State.afterOpcode_afterBytes]

/-- R105: Absolute raises where its second byte is out of bounds. -/
theorem resolve_absolute_of_second_out (h : s.mem.get s.pc = some b) (hout : s.mem.get (s.pc + 1) = none) :
    resolve .absolute s = .abort (.addressOutOfBounds (s.pc + 1) s.mem.size ((s.afterBytes 1).setRun .idle)) := by
  have hsecond : fetchByte s.afterOpcode = _ := fetchByte_abort hout
  rw [resolve, resolveAbsolute, fetchByte_done h, Access.bind_done, hsecond]
  rfl

/-- R100: every mode but Accumulator raises where its first stream byte is out of bounds. -/
theorem resolve_of_first_out {r : Resolver} (hr : r ≠ .accumulator) (hout : s.mem.get s.pc = none) :
    resolve r s = .abort (.addressOutOfBounds s.pc s.mem.size (s.setRun .idle)) := by
  obtain ⟨n, hn⟩ : ∃ n, r.streamBytes = n + 1 := by
    cases r with
    | accumulator => exact absurd rfl hr
    | immediate | zeroPage | zeroPageX | zeroPageY => exact ⟨0, rfl⟩
    | absolute => exact ⟨1, rfl⟩
  refine resolve_of_fetchBytes_abort ?_
  rw [hn, fetchBytes, fetchByte_abort hout, Access.bind_abort]

/-- R109, D9: an entry whose resolver comes down to a data read faults where that is out of bounds. -/
theorem step_of_entry_read_out {t : State} {op : Byte} {ins : Instruction} {addr : Addr} (h : s.mem.get s.pc = some op)
    (hl : s.itable.lookup op = some ins) (hr : resolve ins.resolver s.afterOpcode = readByte addr t)
    (hout : t.mem.get addr = none) : step s = .fault (.addressOutOfBounds addr t.mem.size (t.setRun .idle)) :=
  step_of_entry_abort h hl (hr.trans (readByte_abort hout))

end ResolverOperands

/-! ### An instruction whose operand half completes -/

section Instructions

variable {s : State} {v : Byte}

/-- R136, R121: the identity load of an operand that is there. -/
theorem adapt_identity_done (v : Byte) (s : State) : adapt .identity .loadA (.done v s) = .next (s.loaded v) := by
  rw [adapt_done, transformByte_identity, applyLoadA_eq_loaded]

/-- R137: LDA immediate loads its operand. -/
theorem exec_ldaImm (imm8 : Byte) (s : State) : exec (.ldaImm imm8) s = .next (s.loaded imm8) :=
  adapt_identity_done imm8 s

/-- R138: LDA zero page loads the byte at its address. -/
theorem exec_ldaZp_done {zp8 : Byte} (h : s.mem.get (BitVec.ofNat 16 zp8.toNat) = some v) :
    exec (.ldaZp zp8) s = .next ((s.charge 1).loaded v) := by
  rw [exec, execLdaZp, operandZeroPage, zeroPageAddr_eq_ofNat, readByte_done h, adapt_identity_done]

/-- R139: LDA zero page,X loads the byte at the 8-bit sum of base and X. -/
theorem exec_ldaZpx_done {base8 : Byte} (h : s.mem.get (BitVec.ofNat 16 ((base8.toNat + s.x.toNat) % 256)) = some v) :
    exec (.ldaZpx base8) s = .next (((s.charge 1).charge 1).loaded v) := by
  rw [exec, execLdaZpx, operandZeroPageX, operandIndexed_eq_readByte, readByte_done (s := s.charge 1) h, adapt_identity_done]

/-- R140: LDA absolute loads the byte at its address. -/
theorem exec_ldaAbs_done {abs16 : Addr} (h : s.mem.get abs16 = some v) :
    exec (.ldaAbs abs16) s = .next ((s.charge 1).loaded v) := by
  rw [exec, execLdaAbs, operandAbsolute, readByte_done h, adapt_identity_done]

end Instructions

/-! ### The step by the bytes at PC -/

section StepByBytes

variable {s : State} {bytes : List Byte} {i : Instr}

/-- R100: bytes that stand at PC are what the stream fetch gives. -/
theorem fetchBytes_of_holds (h : s.mem.holds s.pc bytes) :
    fetchBytes bytes.length s = .done bytes (s.afterBytes bytes.length) := by
  induction bytes generalizing s with
  | nil => rw [List.length_nil, State.afterBytes_zero, fetchBytes_zero]
  | cons b bs ih =>
    obtain ⟨hb, hbs⟩ := h
    have hrest := ih (s := s.afterOpcode) hbs
    rw [List.length_cons, fetchBytes, fetchByte_done hb, Access.bind_done, hrest, Access.bind_done,
      State.afterOpcode_afterBytes]

/-- R160: where the bytes at PC decode to an instruction, with no byte left over, the step is that instruction past its bytes. -/
theorem step_of_holds (h : s.mem.holds s.pc bytes) (hdecode : decodeWith s.itable bytes = .ok (i, [])) :
    step s = exec i (s.afterBytes i.length) := by
  obtain ⟨op, hl, rfl⟩ := decodeWith_eq_ok_iff.mp hdecode
  rw [List.append_nil] at h hdecode
  obtain ⟨hop, hbytes⟩ := h
  have hoperands : fetchBytes i.entry.resolver.streamBytes s.afterOpcode =
      .done i.operandBytes (s.afterBytes i.length) := by
    have hfetch := fetchBytes_of_holds (s := s.afterOpcode) hbytes
    rwa [State.afterOpcode_afterBytes, ← Instr.length_eq_operandBytes_succ, Instr.length_operandBytes] at hfetch
  refine step_of_instr ?_
  simp only [fetchInstr, fetchByte_done hop, hl, hoperands, hdecode]

end StepByBytes

/-! ### Bytes the host places -/

section Placing

variable {m : Memory} {addr addr' : Addr} {b v : Byte}

/-- A placed byte is read back. -/
theorem Memory.get_place_self (h : m.wf) (addr : Addr) (v : Byte) : (m.place addr v).get addr = some v := by
  obtain ⟨-, hsorted, -⟩ := h
  exact Memory.get_eq_some.mpr ⟨Nat.lt_of_lt_of_le (Nat.lt_succ_self _) (Nat.le_max_right ..), cellAt_putCell_self hsorted _ _⟩

/-- Placing a byte keeps what another address reads. -/
theorem Memory.get_place_other (h : m.get addr' = some b) (hne : addr' ≠ addr) : (m.place addr v).get addr' = some b := by
  obtain ⟨hlt, hcell⟩ := Memory.get_eq_some.mp h
  have hn : addr'.toNat ≠ addr.toNat := fun he => hne (BitVec.eq_of_toNat_eq he)
  exact Memory.get_eq_some.mpr ⟨Nat.lt_of_lt_of_le hlt (Nat.le_max_left ..), (cellAt_putCell_other _ _ hn).trans hcell⟩

/-- Placing bytes keeps what the addresses outside them read. -/
theorem Memory.get_placeAll_other {bs : List Byte} (h : m.get addr' = some b)
    (hne : ∀ k < bs.length, addr' ≠ addr + BitVec.ofNat 16 k) : (m.placeAll addr bs).get addr' = some b := by
  induction bs generalizing m addr with
  | nil => exact h
  | cons c bs ih =>
    have hfirst : addr' ≠ addr := by simpa using hne 0 (by simp)
    refine ih (Memory.get_place_other h hfirst) fun k hk => ?_
    rw [pc_succ_add]
    exact hne (k + 1) (by simpa using hk)

/-- Placed bytes stand in memory, as long as the last does not come round to the first. -/
theorem Memory.holds_placeAll {bs : List Byte} (h : m.wf) (addr : Addr) (hlen : bs.length ≤ 65536) :
    (m.placeAll addr bs).holds addr bs := by
  induction bs generalizing m addr with
  | nil => trivial
  | cons b bs ih =>
    rw [List.length_cons] at hlen
    have hapart : ∀ k < bs.length, addr ≠ addr + 1 + BitVec.ofNat 16 k := fun k hk he => by
      have hlt : addr.toNat < 65536 := addr.isLt
      have hk' := congrArg BitVec.toNat (he.trans (pc_succ_add addr k))
      rw [pc_add_toNat] at hk'
      omega
    exact ⟨Memory.get_placeAll_other (addr := addr + 1) (Memory.get_place_self h addr b) hapart,
      ih (Memory.place_wf h addr b) (addr + 1) (by omega)⟩

/-- Two readable bytes, one after the other. -/
theorem Memory.holds_two {c : Byte} (hb : m.get addr = some b) (hc : m.get (addr + 1) = some c) : m.holds addr [b, c] :=
  ⟨hb, hc, trivial⟩

/-- Of bytes that stand in memory, so do the first ones. -/
theorem Memory.holds_of_append {bs cs : List Byte} (h : m.holds addr (bs ++ cs)) : m.holds addr bs := by
  induction bs generalizing addr with
  | nil => trivial
  | cons b bs ih =>
    obtain ⟨hb, hbs⟩ := h
    exact ⟨hb, ih hbs⟩

end Placing

/-- A table word is an instruction when its bytes decode to it, with some bytes left over. -/
theorem decode_of_decodeTableWord {nbits w : Nat} {i : Instr} (h : decodeTableWord nbits w = some i) :
    ∃ rest, decodeWith defaultTable (tableWordBytes nbits w) = .ok (i, rest) := by
  unfold decodeTableWord at h
  split at h
  · next rest hd => cases h; exact ⟨rest, hd⟩
  · cases h

/-! ### The statements -/

/-- Settles O9: the two primitives, each by whether its address is readable. -/
theorem accountingPrimitives : Obligations.AccountingPrimitives := fun _ _ =>
  ⟨fun _ h => fetchByte_done h, fun h => fetchByte_abort h, fun _ h => readByte_done h, fun h => readByte_abort h⟩

/-- Settles O20: after the base byte the mode is the index cycle and the data read, whichever way that ends. -/
theorem zeroPageYResolver : Obligations.ZeroPageYResolver := by
  intro s base hbase
  rw [resolveZeroPageY_of_get hbase]
  exact ⟨fun _ hv => readByte_done (s := (s.afterBytes 1).charge 1) hv,
    fun hout => readByte_abort (s := (s.afterBytes 1).charge 1) hout⟩

/-- Settles O21, mode by mode from the rule of a resolver that completes. -/
theorem resolverMovesOnlyPcAndCycles : Obligations.ResolverMovesOnlyPcAndCycles := by
  intro r s t v h
  rw [resolve_eq_done h]
  cases r <;> rfl

/-- Settles O22. -/
theorem ldaImmediateLoadsItsOperand : Obligations.LdaImmediateLoadsItsOperand := exec_ldaImm

/-- Settles O23. -/
theorem ldaZeroPageLoadsTheByte : Obligations.LdaZeroPageLoadsTheByte := fun _ _ _ h => exec_ldaZp_done h

/-- Settles O24: the index cycle and the data read are the two cycles. -/
theorem ldaZeroPageXLoadsTheWrappedByte : Obligations.LdaZeroPageXLoadsTheWrappedByte := fun _ _ _ h => exec_ldaZpx_done h

/-- Settles O25. -/
theorem ldaAbsoluteLoadsTheByte : Obligations.LdaAbsoluteLoadsTheByte := fun _ _ _ h => exec_ldaAbs_done h

/-- Settles O27. -/
theorem stepRunsTheDecodedInstruction : Obligations.StepRunsTheDecodedInstruction := fun _ _ _ h hdecode _ =>
  step_of_holds h hdecode

/-- Settles O29: the two bytes decode to LDA immediate, which completes. -/
theorem ldaImmediateStep : Obligations.LdaImmediateStep := by
  intro s op imm8 hop hl himm
  rw [step_of_holds (Memory.holds_two hop himm) (decodeWith_immediate [] hl imm8)]
  exact exec_ldaImm imm8 _

/-- Settles O30: the two bytes decode to LDA zero page, whose data address is readable. -/
theorem ldaZeroPageStep : Obligations.LdaZeroPageStep := by
  intro s op zp8 v hop hl hzp hv
  rw [step_of_holds (Memory.holds_two hop hzp) (decodeWith_zeroPage [] hl zp8)]
  exact exec_ldaZp_done (s := s.afterBytes 2) hv

/-- Settles O31: the two bytes decode to LDA zero page,X, whose data address is readable. -/
theorem ldaZeroPageXStep : Obligations.LdaZeroPageXStep := by
  intro s op base8 v hop hl hbase hv
  rw [step_of_holds (Memory.holds_two hop hbase) (decodeWith_zeroPageX [] hl base8)]
  exact exec_ldaZpx_done (s := s.afterBytes 2) hv

/-- Settles O32: the three bytes decode to LDA absolute, whose data address is readable. -/
theorem ldaAbsoluteStep : Obligations.LdaAbsoluteStep := by
  intro s op lo hi v hop hl hlo hhi hv
  have hbytes : s.mem.holds s.pc [op, lo, hi] := ⟨hop, hlo, (pc_succ_add s.pc 1).symm ▸ hhi, trivial⟩
  rw [step_of_holds hbytes (decodeWith_absolute [] hl lo hi), joinBytes_eq_ofNat]
  exact exec_ldaAbs_done (s := s.afterBytes 3) hv

/-- Settles O33: the fetch misses, and the miss is reported. -/
theorem undefinedOpcodeIsReportedAndSkipped : Obligations.UndefinedOpcodeIsReportedAndSkipped := fun _ _ hop hl =>
  step_of_miss (fetchInstr_miss hop hl)

/-- Settles O34: an abort is the resolver's, from the state after the opcode byte; each row is the access at which it raises. -/
theorem abortLeavesWhatEarlierAccessesDid : Obligations.AbortLeavesWhatEarlierAccessesDid := by
  intro s
  refine ⟨fun hout => step_of_abort (fetchInstr_abort hout), ?_⟩
  rintro op ⟨mode, f, applier⟩ hop hl
  have hsecond : s.pc + 1 + 1 = s.pc + 2 := pc_succ_add s.pc 1
  refine ⟨fun hmode hout => step_of_entry_abort hop hl (resolve_of_first_out (s := s.afterOpcode) hmode hout),
    fun b1 hb1 => ⟨?_, ?_, ?_, ?_⟩⟩
  · rintro rfl hout
    have habort := resolve_absolute_of_second_out (s := s.afterOpcode) hb1 (hsecond ▸ hout)
    rw [State.afterOpcode_afterBytes, State.charge_pc, State.advancePc_pc, hsecond] at habort
    exact step_of_entry_abort hop hl habort
  · rintro rfl hout
    have hread := resolve_zeroPage_of_get (s := s.afterOpcode) hb1
    rw [State.afterOpcode_afterBytes] at hread
    exact step_of_entry_read_out hop hl hread hout
  · rintro rfl hout
    have hread := resolve_zeroPageX_of_get (s := s.afterOpcode) hb1
    rw [State.afterOpcode_afterBytes] at hread
    exact step_of_entry_read_out hop hl hread hout
  · rintro b2 rfl hb2 hout
    have hread := resolve_absolute_of_get (s := s.afterOpcode) hb1 (hsecond ▸ hb2)
    rw [State.afterOpcode_afterBytes] at hread
    exact step_of_entry_read_out hop hl hread hout

/-- Settles O35, from the frame of a step that faults. -/
theorem faultsOnlyOutOfBoundsAndTouchNoRegister : Obligations.FaultsOnlyOutOfBoundsAndTouchNoRegister := by
  intro s left addr n h
  obtain ⟨_, _, c, hout, hc, he⟩ := step_eq_fault_frame h
  cases he
  exact ⟨rfl, hout, rfl, Nat.le_add_right _ _, Nat.add_le_add_left hc _⟩

/-- Settles O38: a completed step costs the opcode fetch and its entry's mode, and the four entries are known. -/
theorem cycleCostIsFixedPerOpcode : Obligations.CycleCostIsFixedPerOpcode := by
  intro s t htable h
  obtain ⟨op, hg, hcost⟩ := cycles_of_step_eq_next h
  refine ⟨op, hg, ?_⟩
  rw [htable, defaultTableHasFourEntries op] at hcost
  rcases hcost with ⟨hl, hc⟩ | ⟨ins, hl, hc⟩
  · split_ifs at hl ⊢
    exact hc
  · split_ifs at hl ⊢ <;> cases hl <;> exact hc

/-- Settles O41: the placed bytes stand at PC, and the instruction's own are the first of them. -/
theorem placedWordRunsNext : Obligations.PlacedWordRunsNext := by
  intro s nbits w i hwf htable hword
  obtain ⟨rest, hdecode⟩ := decode_of_decodeTableWord hword
  obtain ⟨op, hl, hbytes⟩ := decodeWith_eq_ok_iff.mp hdecode
  have hplaced : (s.withFetchWord nbits w).mem.holds s.pc (tableWordBytes nbits w) :=
    Memory.holds_placeAll hwf s.pc (by decide : 3 ≤ 65536)
  rw [hbytes, ← List.cons_append] at hplaced
  have hown : decodeWith s.itable (op :: i.operandBytes) = .ok (i, []) :=
    decodeWith_eq_ok_iff.mpr ⟨op, htable ▸ hl, by rw [List.append_nil]⟩
  exact step_of_holds (s := s.withFetchWord nbits w) (Memory.holds_of_append hplaced) hown

end Sys2Proof.Machine
end

section
/-! PROOF. The execute loop: its fuel and its `while` equation, what a return has consumed, what it answers, how calls compose, and
the remaining statements of 43_dispatch_and_execute.md. -/

namespace Sys2Proof.Machine

/-! ### Cycles through a step -/

section StepCycles

variable {s t : State}

/-- R220: no mode costs more than three cycles after the opcode fetch. -/
theorem resolverCost_le_three (r : Resolver) : resolverCost r ≤ 3 := by
  cases r <;> decide

/-- R166: a completed step costs at most four cycles. -/
theorem cycles_le_of_step_eq_next (h : step s = .next t) : t.cycles ≤ s.cycles + 4 := by
  obtain ⟨_, -, ⟨-, hc⟩ | ⟨ins, -, hc⟩⟩ := cycles_of_step_eq_next h
  · omega
  · have := resolverCost_le_three ins.resolver
    omega

/-- An aborted step takes no cycle back (D9). -/
theorem cycles_le_of_step_eq_fault {left : State} {addr : Addr} {size : Nat}
    (h : step s = .fault (.addressOutOfBounds addr size left)) : s.cycles ≤ left.cycles := by
  obtain ⟨_, _, _, -, -, he⟩ := step_eq_fault_frame h
  cases he
  exact Nat.le_add_right _ _

/-- R164: a step that raises the counter raises what either basis counts as consumed, once the call has started. -/
theorem consumed_lt_of_step_eq_next {basis : BudgetBasis} {start : Nat} (hstart : start ≤ s.cycles) (h : step s = .next t) :
    consumed basis start s < consumed basis start t := by
  have hlt := cycles_lt_of_step_eq_next h
  cases basis with
  | perCall => exact Nat.sub_lt_sub_right hstart hlt
  | sinceReset => exact hlt

end StepCycles

/-! ### One iteration of the loop -/

/-- What an iteration meets (R162): a consumed budget, a step that completes, or a step that faults; no step is refused. -/
theorem iteration_cases (basis : BudgetBasis) (start budget : Nat) (s : State) :
    ¬ consumed basis start s < budget ∨
      (consumed basis start s < budget ∧ ∃ t, step s = .next t) ∨
      (consumed basis start s < budget ∧ ∃ addr size left, step s = .fault (.addressOutOfBounds addr size left)) := by
  by_cases hb : consumed basis start s < budget
  · cases hs : step s with
    | next t => exact .inr (.inl ⟨hb, t, rfl⟩)
    | fault e =>
      obtain ⟨addr, size, left⟩ := e
      exact .inr (.inr ⟨hb, addr, size, left, rfl⟩)
    | refused r => exact absurd hs step_ne_refused
  · exact .inl hb

/-! ### The loop's fuel -/

section Fuel

variable {basis : BudgetBasis} {start budget fuel : Nat} {s : State}

/-- R166: fuel that covers what is left of the budget is never what ends the loop, as each step consumes a cycle. -/
theorem runLoop_succ (hstart : start ≤ s.cycles) (hfuel : budget - consumed basis start s ≤ fuel) :
    runLoop basis start budget (fuel + 1) s = runLoop basis start budget fuel s := by
  induction fuel generalizing s with
  | zero =>
    have hb : ¬ consumed basis start s < budget := by omega
    rw [runLoop_of_consumed _ hb, runLoop_of_consumed _ hb]
  | succ n ih =>
    rcases iteration_cases basis start budget s with hb | ⟨hb, t, hs⟩ | ⟨hb, addr, size, left, hs⟩
    · rw [runLoop_of_consumed _ hb, runLoop_of_consumed _ hb]
    · have hlt := consumed_lt_of_step_eq_next (basis := basis) hstart hs
      have hle := cycles_lt_of_step_eq_next hs
      rw [runLoop_of_next _ hb hs, runLoop_of_next _ hb hs]
      exact ih (by omega) (by omega)
    · rw [runLoop_of_fault _ hb hs, runLoop_of_fault _ hb hs]

/-- Any two sufficient amounts of fuel run the loop alike. -/
theorem runLoop_eq_of_le {fuel' : Nat} (hstart : start ≤ s.cycles) (hfuel : budget - consumed basis start s ≤ fuel)
    (hle : fuel ≤ fuel') : runLoop basis start budget fuel' s = runLoop basis start budget fuel s := by
  induction hle with
  | refl => rfl
  | step hle ih => exact (runLoop_succ hstart (Nat.le_trans hfuel hle)).trans ih

/-- R162: while the budget is not consumed, the loop is one step and the loop again, with the same sufficient fuel. -/
theorem runLoop_eq_of_step_eq_next {t : State} (hstart : start ≤ s.cycles) (hfuel : budget - consumed basis start s ≤ fuel)
    (hb : consumed basis start s < budget) (hs : step s = .next t) :
    runLoop basis start budget fuel s = runLoop basis start budget fuel t := by
  rw [← runLoop_succ hstart hfuel, runLoop_of_next fuel hb hs]

end Fuel

/-! ### What the loop answers -/

section Answers

variable {s t : State} {start budget fuel : Nat}

/-- Cycles only rise through the loop. -/
theorem cycles_le_of_runLoop (basis : BudgetBasis) (start budget fuel : Nat) (s : State) :
    s.cycles ≤ (runLoop basis start budget fuel s).2.cycles :=
  runLoop_induction (P := fun t => s.cycles ≤ t.cycles)
    (fun _ _ hle h => Nat.le_trans hle (cycles_lt_of_step_eq_next h).le)
    (fun _ _ _ _ hle h => Nat.le_trans hle (cycles_le_of_step_eq_fault h)) basis start budget fuel s (Nat.le_refl _)

/-- So a loop that returns normally has taken no cycle back. -/
theorem cycles_le_of_runLoop_ok {basis : BudgetBasis} (h : runLoop basis start budget fuel s = (.ok, t)) :
    s.cycles ≤ t.cycles := by
  have hle := cycles_le_of_runLoop basis start budget fuel s
  rwa [h] at hle

/-- What a loop that returns normally has done: nothing, as the budget was consumed or the fuel spent, or a completed step and the
loop again. -/
theorem runLoop_succ_eq_ok {basis : BudgetBasis} (h : runLoop basis start budget (fuel + 1) s = (.ok, t)) :
    (¬ consumed basis start s < budget ∧ t = s) ∨
      ∃ u, consumed basis start s < budget ∧ step s = .next u ∧ runLoop basis start budget fuel u = (.ok, t) := by
  rcases iteration_cases basis start budget s with hb | ⟨hb, u, hs⟩ | ⟨hb, addr, size, left, hs⟩
  · rw [runLoop_of_consumed _ hb] at h
    cases h
    exact .inl ⟨hb, rfl⟩
  · rw [runLoop_of_next fuel hb hs] at h
    exact .inr ⟨u, hb, hs, h⟩
  · rw [runLoop_of_fault fuel hb hs] at h
    cases h

/-- R163, R166: a loop that starts within the bound and returns normally has reached the budget, and is within the bound: the budget
is tested before the last step, which costs at most four cycles. -/
theorem runLoop_ok_cycles (h : runLoop .perCall start budget fuel s = (.ok, t)) (hstart : start ≤ s.cycles)
    (hfuel : budget - (s.cycles - start) ≤ fuel) (hbound : s.cycles ≤ start + budget + 3) :
    start + budget ≤ t.cycles ∧ t.cycles ≤ start + budget + 3 := by
  induction fuel generalizing s with
  | zero =>
    cases h
    omega
  | succ n ih =>
    rcases runLoop_succ_eq_ok h with ⟨hb, rfl⟩ | ⟨u, hb, hs, h⟩
    · simp only [consumed] at hb
      omega
    · have hlt := cycles_lt_of_step_eq_next hs
      have hle := cycles_le_of_step_eq_next hs
      simp only [consumed] at hb
      exact ih h (by omega) (by omega) (by omega)

/-- R168: the loop answers Ok, or the error of an access not below MEM_SIZE. -/
theorem runLoop_answer (basis : BudgetBasis) (start budget fuel : Nat) (s : State) :
    (runLoop basis start budget fuel s).1 = .ok ∨
      ∃ addr : Addr, (runLoop basis start budget fuel s).1 = .error addr s.mem.size ∧ s.mem.size ≤ addr.toNat := by
  induction fuel generalizing s with
  | zero => exact .inl rfl
  | succ n ih =>
    rcases iteration_cases basis start budget s with hb | ⟨hb, t, hs⟩ | ⟨hb, addr, size, left, hs⟩
    · rw [runLoop_of_consumed _ hb]
      exact .inl rfl
    · rw [runLoop_of_next n hb hs, ← mem_of_step_eq_next hs]
      exact ih t
    · rw [runLoop_of_fault n hb hs]
      obtain ⟨_, _, _, hout, -, he⟩ := step_eq_fault_frame hs
      cases he
      exact .inr ⟨addr, rfl, hout⟩

end Answers

/-! ### What the loop leaves alone -/

/-- Memory, X, Y, SP and the table are the same. -/
structure State.SameInert (s t : State) : Prop where
  mem : t.mem = s.mem
  x : t.x = s.x
  y : t.y = s.y
  sp : t.sp = s.sp
  itable : t.itable = s.itable

theorem State.SameInert.trans {s t u : State} (hst : s.SameInert t) (htu : t.SameInert u) : s.SameInert u :=
  ⟨htu.mem.trans hst.mem, htu.x.trans hst.x, htu.y.trans hst.y, htu.sp.trans hst.sp, htu.itable.trans hst.itable⟩

/-- R124: no completed step writes one of these elements. -/
theorem State.SameInert.of_step_eq_next {s t : State} (h : step s = .next t) : s.SameInert t := by
  rw [step_eq_next_frame h]
  exact ⟨rfl, rfl, rfl, rfl, rfl⟩

/-- R182: no aborted step does. -/
theorem State.SameInert.of_step_eq_fault {s left : State} {addr : Addr} {size : Nat}
    (h : step s = .fault (.addressOutOfBounds addr size left)) : s.SameInert left := by
  rw [left_of_step_eq_fault h]
  exact ⟨rfl, rfl, rfl, rfl, rfl⟩

/-- So no call does, whether it returns or aborts. -/
theorem State.SameInert.of_execute (budget : Nat) (s : State) : s.SameInert (execute budget s).2 :=
  have hloop := runLoop_induction (P := s.SameInert) (fun _ _ hs h => hs.trans (.of_step_eq_next h))
    (fun _ _ _ _ hs h => hs.trans (.of_step_eq_fault h)) Config.budgetBasis s.cycles budget budget (s.setRun .running)
    ⟨rfl, rfl, rfl, rfl, rfl⟩
  ⟨hloop.mem, hloop.x, hloop.y, hloop.sp, hloop.itable⟩

/-! ### Two loops in a row -/

section Composition

variable {s t : State} {start budget fuel : Nat}

/-- A loop that returns normally has not touched the run state: only an abort does. -/
theorem run_of_runLoop_ok {basis : BudgetBasis} (h : runLoop basis start budget fuel s = (.ok, t)) : t.run = s.run := by
  induction fuel generalizing s with
  | zero => cases h; rfl
  | succ n ih =>
    rcases runLoop_succ_eq_ok h with ⟨-, rfl⟩ | ⟨u, -, hs, h⟩
    · rfl
    · rw [ih h, step_eq_next_frame hs]

/-- A loop with a larger budget goes on from where a loop that returned normally ended, as it takes the same steps up to there. -/
theorem runLoop_eq_of_runLoop_ok {larger fuel' : Nat} (h : runLoop .perCall start budget fuel s = (.ok, t))
    (hstart : start ≤ s.cycles) (hlarger : t.cycles - start ≤ larger) (hfuel : larger - (s.cycles - start) ≤ fuel') :
    runLoop .perCall start larger fuel' s = runLoop .perCall start larger fuel' t := by
  induction fuel generalizing s with
  | zero => cases h; rfl
  | succ n ih =>
    rcases runLoop_succ_eq_ok h with ⟨-, rfl⟩ | ⟨u, -, hs, h⟩
    · rfl
    · have hlt := cycles_lt_of_step_eq_next hs
      have hle := cycles_le_of_runLoop_ok h
      have hb : consumed .perCall start s < larger := show s.cycles - start < larger by omega
      rw [runLoop_eq_of_step_eq_next hstart hfuel hb hs]
      exact ih h (by omega) (by omega)

/-- R164: counting from a later start, the budget is what is left of it. -/
theorem runLoop_later_start {later : Nat} (hlater : start ≤ later) (hs : later ≤ s.cycles) (budget fuel : Nat) :
    runLoop .perCall start (later - start + budget) fuel s = runLoop .perCall later budget fuel s := by
  induction fuel generalizing s with
  | zero => rfl
  | succ n ih =>
    have hiff : consumed .perCall start s < later - start + budget ↔ consumed .perCall later s < budget := by
      simp only [consumed]
      omega
    rcases iteration_cases .perCall later budget s with hb | ⟨hb, t, ht⟩ | ⟨hb, addr, size, left, ht⟩
    · rw [runLoop_of_consumed _ hb, runLoop_of_consumed _ (hiff.not.mpr hb)]
    · rw [runLoop_of_next n hb ht, runLoop_of_next n (hiff.mpr hb) ht]
      exact ih (Nat.le_trans hs (cycles_lt_of_step_eq_next ht).le)
    · rw [runLoop_of_fault n hb ht, runLoop_of_fault n (hiff.mpr hb) ht]

/-- A call that returns normally is its loop, entered Running, with the run state set back. -/
theorem execute_eq_ok (h : execute budget s = (.ok, t)) :
    ∃ u, runLoop .perCall s.cycles budget budget (s.setRun .running) = (.ok, u) ∧ t = u.setRun .idle := by
  obtain ⟨hok, hstate⟩ := Prod.mk.inj h
  exact ⟨_, Prod.ext hok rfl, hstate.symm⟩

end Composition

/-! ### The statements -/

/-- Settles O46: the loop with one more unit of fuel is the right side, and beyond sufficient fuel a unit more makes no difference. -/
theorem loopSatisfiesTheWhileEquation : Obligations.LoopSatisfiesTheWhileEquation := fun _ _ _ _ _ hstart hfuel =>
  (runLoop_succ hstart hfuel).symm

/-- Settles O47: the loop starts at its own start, with the budget as fuel. -/
theorem normalReturnMeetsTheBudget : Obligations.NormalReturnMeetsTheBudget := by
  intro budget s t h
  obtain ⟨u, hloop, rfl⟩ := execute_eq_ok h
  obtain ⟨hreached, hbound⟩ := runLoop_ok_cycles hloop (Nat.le_refl _) (Nat.sub_le _ _) (by rw [State.setRun_cycles]; omega)
  exact ⟨hreached, hbound, rfl⟩

/-- Settles O48: the loop's answer, and what it leaves alone; no 16-bit address is beyond the whole address space. -/
theorem executeAnswersOkOrOutOfBounds : Obligations.ExecuteAnswersOkOrOutOfBounds := by
  intro budget s
  have hanswer := runLoop_answer Config.budgetBasis s.cycles budget budget (s.setRun .running)
  have hsame := State.SameInert.of_execute budget s
  refine ⟨hanswer, fun hfull => hanswer.resolve_right ?_, rfl, hsame.mem, hsame.x, hsame.y, hsame.sp, hsame.itable⟩
  rintro ⟨addr, -, hout⟩
  rw [State.setRun_mem, hfull] at hout
  exact absurd addr.isLt (Nat.not_lt_of_le hout)

/-- Settles O49: the joint call takes the first call's steps, and from there is the second call with its start counted later. -/
theorem consecutiveCallsComposeIntoOne : Obligations.ConsecutiveCallsComposeIntoOne := by
  intro first second s t h
  obtain ⟨u, hloop, rfl⟩ := execute_eq_ok h
  have hrun : (u.setRun .idle).setRun .running = u := congrArg u.setRun (run_of_runLoop_ok hloop).symm
  have hle : s.cycles ≤ u.cycles := cycles_le_of_runLoop_ok (s := s.setRun .running) hloop
  have hcompose : runLoop .perCall s.cycles (u.cycles - s.cycles + second) (u.cycles - s.cycles + second) (s.setRun .running) =
      runLoop .perCall u.cycles second second u := calc
    _ = runLoop .perCall s.cycles (u.cycles - s.cycles + second) (u.cycles - s.cycles + second) u :=
      runLoop_eq_of_runLoop_ok hloop (Nat.le_refl _) (Nat.le_add_right _ _) (Nat.sub_le _ _)
    _ = runLoop .perCall u.cycles second (u.cycles - s.cycles + second) u :=
      runLoop_later_start hle (Nat.le_refl _) second _
    _ = runLoop .perCall u.cycles second second u :=
      runLoop_eq_of_le (Nat.le_refl _) (Nat.sub_le _ _) (Nat.le_add_left _ _)
  simp only [execute, executeWith, Config.budgetBasis, hrun, State.setRun_cycles, hcompose]

end Sys2Proof.Machine
end
